-- ==== Sys2Proof/Word.lean ====
section
/-! DEFINITION. The word types of FPCV: bytes, beat words, host words and host offsets (00_scope.md R6 to R8). -/

namespace Sys2Proof

/-- A byte: an unsigned 8-bit integer, bit 0 the least significant (R7, R8). -/
abbrev Byte := BitVec 8

/-- A beat word of the stream input port: LAST, NOBYTE and DATA[7:0], 10 bits (R72). -/
abbrev BeatWord := BitVec 10

/-- A host transaction word: WE, ADDR[8:0] and WDATA[7:0], 18 bits (R74). -/
abbrev HostWord := BitVec 18

/-- A 9-bit offset in the host register block (R30, R53). -/
abbrev Offset := BitVec 9

end Sys2Proof
end

