-- ==== Sys2Proof/Syntax.lean ====
section
/-! DEFINITION. The operations of FPCV as syntax: one constructor for each row of spec/opcode_table.json, the mnemonics,
and the words of the two ports (30_encoding.md R72 to R76). -/

namespace Sys2Proof

/-- One operation: a kind of beat or of host transaction (R10, R75). A field that the spec calls ignored is kept as the
operand `ign`, so that no bit of a word is lost; no meaning reads it (log entry 12). -/
inductive Instr where
  /-- PUSH b: one byte that does not end the buffer (R113). -/
  | push (b : Byte)
  /-- BEAT_RSVD: the reserved beat kind, DATA ignored (R116). -/
  | beatRsvd (ign : Byte)
  /-- PUSHL b: the last byte of the buffer (R114). -/
  | pushl (b : Byte)
  /-- EOB: the end of the buffer with no byte, DATA ignored (R115). -/
  | eob (ign : Byte)
  /-- WR CTRL, v (R132). -/
  | wrCtrl (v : Byte)
  /-- WR @a, v with a not 0x000; the byte is ignored (R133). -/
  | wrIgn (a : Offset) (ign : Byte)
  /-- RD CTRL (R134). -/
  | rdCtrl (ign : Byte)
  /-- RD STATUS (R135). -/
  | rdStatus (ign : Byte)
  /-- RD ERRCODE (R136). -/
  | rdErrcode (ign : Byte)
  /-- RD HEAD (R137). -/
  | rdHead (ign : Byte)
  /-- RD TYPE (R138). -/
  | rdType (ign : Byte)
  /-- RD LENGTH (R139). -/
  | rdLength (ign : Byte)
  /-- RD CSUM_RX (R140). -/
  | rdCsumRx (ign : Byte)
  /-- RD CSUM_CALC (R141). -/
  | rdCsumCalc (ign : Byte)
  /-- RD KIND (R142). -/
  | rdKind (ign : Byte)
  /-- RD SUFFIX_CNT (R143). -/
  | rdSuffixCnt (ign : Byte)
  /-- RD PAYLOAD[i], i = ADDR[7:0] (R144). -/
  | rdPayload (i : Byte) (ign : Byte)
  /-- RD @a with a in 0x00A..0x0FF, given by ADDR[7:0] since ADDR[8] is 0 (R145). -/
  | rdRsvd (a : Byte) (ign : Byte)
deriving DecidableEq, Repr

/-- The 18 mnemonics of the opcode map (R75). -/
inductive Mnemonic where
  | PUSH | BEAT_RSVD | PUSHL | EOB
  | WR_CTRL | WR_IGN
  | RD_CTRL | RD_STATUS | RD_ERRCODE | RD_HEAD | RD_TYPE | RD_LENGTH | RD_CSUM_RX | RD_CSUM_CALC
  | RD_KIND | RD_SUFFIX_CNT | RD_PAYLOAD | RD_RSVD
deriving DecidableEq, Repr

/-- The row of the opcode map an operation belongs to (R75). -/
def Instr.mnemonic : Instr → Mnemonic
  | .push _ => .PUSH
  | .beatRsvd _ => .BEAT_RSVD
  | .pushl _ => .PUSHL
  | .eob _ => .EOB
  | .wrCtrl _ => .WR_CTRL
  | .wrIgn _ _ => .WR_IGN
  | .rdCtrl _ => .RD_CTRL
  | .rdStatus _ => .RD_STATUS
  | .rdErrcode _ => .RD_ERRCODE
  | .rdHead _ => .RD_HEAD
  | .rdType _ => .RD_TYPE
  | .rdLength _ => .RD_LENGTH
  | .rdCsumRx _ => .RD_CSUM_RX
  | .rdCsumCalc _ => .RD_CSUM_CALC
  | .rdKind _ => .RD_KIND
  | .rdSuffixCnt _ => .RD_SUFFIX_CNT
  | .rdPayload _ _ => .RD_PAYLOAD
  | .rdRsvd _ _ => .RD_RSVD

/-- The two ports, each with its own word format: SB and HT (R75). -/
inductive Port where
  | stream
  | host
deriving DecidableEq, Repr

/-- A word offered on one of the two ports (R75: a word is decoded within its own port's format). -/
inductive PortWord where
  | beat (w : BeatWord)
  | host (w : HostWord)
deriving DecidableEq, Repr

/-- The port an operation belongs to (R75). -/
def Instr.port : Instr → Port
  | .push _ | .beatRsvd _ | .pushl _ | .eob _ => .stream
  | .wrCtrl _ | .wrIgn _ _ | .rdCtrl _ | .rdStatus _ | .rdErrcode _ | .rdHead _ | .rdType _ | .rdLength _
  | .rdCsumRx _ | .rdCsumCalc _ | .rdKind _ | .rdSuffixCnt _ | .rdPayload _ _ | .rdRsvd _ _ => .host

end Sys2Proof
end

