-- ==== Sys2Proof/WellFormed.lean ====
section
/-! DEFINITION. Which terms of the syntax are operations: the operand ranges of 30_encoding.md R75. -/

namespace Sys2Proof

/-- The operand ranges of the opcode map: WR_IGN needs ADDR other than 0x000 (R133), RD_RSVD needs ADDR in
0x00A..0x0FF (R145), and every other operand may take every value of its width (R76). -/
def Instr.wf : Instr → Bool
  | .wrIgn a _ => a != 0x000#9
  | .rdRsvd a _ => 0x0A#8 ≤ a
  | .push _ | .beatRsvd _ | .pushl _ | .eob _ | .wrCtrl _ | .rdCtrl _ | .rdStatus _ | .rdErrcode _ | .rdHead _
  | .rdType _ | .rdLength _ | .rdCsumRx _ | .rdCsumCalc _ | .rdKind _ | .rdSuffixCnt _ | .rdPayload _ _ => true

end Sys2Proof
end

