-- ==== Sys2Proof/Decode.lean ====
section
/-! DEFINITION. The decoder and the encoder of the two ports' words, and the opcode map of 30_encoding.md R75. -/

namespace Sys2Proof

/-! ## The fields of the words (R72, R74) -/

/-- DATA[7:0] of a beat word (R72). -/
def beatData (w : BeatWord) : Byte := w.extractLsb' 0 8

/-- NOBYTE, bit 8 of a beat word (R72). -/
def beatNoByte (w : BeatWord) : Bool := w.getLsbD 8

/-- LAST, bit 9 of a beat word (R72). -/
def beatLast (w : BeatWord) : Bool := w.getLsbD 9

/-- WDATA[7:0] of a host word (R74). -/
def hostWData (w : HostWord) : Byte := w.extractLsb' 0 8

/-- ADDR[8:0], bits 16:8 of a host word (R74). -/
def hostAddr (w : HostWord) : Offset := w.extractLsb' 8 9

/-- WE, bit 17 of a host word (R74). -/
def hostWE (w : HostWord) : Bool := w.getLsbD 17

/-! ## The decoder (R72, R75) -/

/-- The beat a beat word is (R72). Total: every beat word is one of the four kinds. -/
def decodeBeat (w : BeatWord) : Instr :=
  match beatLast w, beatNoByte w with
  | false, false => .push (beatData w)
  | true, false => .pushl (beatData w)
  | true, true => .eob (beatData w)
  | false, true => .beatRsvd (beatData w)

/-- The read of the host offset `a` (R75): the payload window when ADDR[8] is 1, else the register rows, else the
reserved row. -/
def decodeRead (a : Offset) (d : Byte) : Instr :=
  if a.getLsbD 8 then .rdPayload (a.extractLsb' 0 8) d
  else if a = 0x000#9 then .rdCtrl d
  else if a = 0x001#9 then .rdStatus d
  else if a = 0x002#9 then .rdErrcode d
  else if a = 0x003#9 then .rdHead d
  else if a = 0x004#9 then .rdType d
  else if a = 0x005#9 then .rdLength d
  else if a = 0x006#9 then .rdCsumRx d
  else if a = 0x007#9 then .rdCsumCalc d
  else if a = 0x008#9 then .rdKind d
  else if a = 0x009#9 then .rdSuffixCnt d
  else .rdRsvd (a.extractLsb' 0 8) d

/-- The transaction a host word is (R74, R75). Total: every host word is exactly one row (R130). -/
def decodeHost (w : HostWord) : Instr :=
  if hostWE w then
    if hostAddr w = 0x000#9 then .wrCtrl (hostWData w) else .wrIgn (hostAddr w) (hostWData w)
  else decodeRead (hostAddr w) (hostWData w)

/-- The operation a port word is, decoded within its own port's format (R75). -/
def decode : PortWord → Instr
  | .beat w => decodeBeat w
  | .host w => decodeHost w

/-- Why a number is no word of a port. -/
inductive DecodeRefusal where
  /-- The number needs more bits than the port's word has: 10 on the stream port, 18 on the host port (R72, R74). Safe. -/
  | wordTooWide (p : Port) (n : Nat)
deriving DecidableEq, Repr

/-- The decoder on any number: it refuses, by name, a number that no word of the port has. -/
def decodeNumber (p : Port) (n : Nat) : Except DecodeRefusal Instr :=
  match p with
  | .stream => if n < 2 ^ 10 then .ok (decodeBeat (BitVec.ofNat 10 n)) else .error (.wordTooWide .stream n)
  | .host => if n < 2 ^ 18 then .ok (decodeHost (BitVec.ofNat 18 n)) else .error (.wordTooWide .host n)

/-- Which port an opcode-table row of `nbits` bits, in whole bytes, belongs to: a beat's 10 bits fill two bytes, a host
word's 18 bits fill three (log entry 11). -/
def tablePort (nbits : Nat) : Port := if nbits ≤ 16 then .stream else .host

/-- The instruction the decoder reads from a table row's bits. -/
def decodeTableWord (nbits w : Nat) : Option Instr :=
  match decodeNumber (tablePort nbits) w with
  | .ok i => some i
  | .error _ => none

/-! ## The encoder -/

/-- A beat word from its fields (R72). -/
def beatWord (last nobyte : Bool) (b : Byte) : BeatWord := BitVec.ofBool last ++ BitVec.ofBool nobyte ++ b

/-- A host word from its fields (R74). -/
def hostWord (we : Bool) (a : Offset) (d : Byte) : HostWord := BitVec.ofBool we ++ a ++ d

/-- The word of an operation, from the encodings of R113 to R116 and R132 to R145. -/
def encode : Instr → PortWord
  | .push b => .beat (beatWord false false b)
  | .beatRsvd d => .beat (beatWord false true d)
  | .pushl b => .beat (beatWord true false b)
  | .eob d => .beat (beatWord true true d)
  | .wrCtrl v => .host (hostWord true 0x000 v)
  | .wrIgn a d => .host (hostWord true a d)
  | .rdCtrl d => .host (hostWord false 0x000 d)
  | .rdStatus d => .host (hostWord false 0x001 d)
  | .rdErrcode d => .host (hostWord false 0x002 d)
  | .rdHead d => .host (hostWord false 0x003 d)
  | .rdType d => .host (hostWord false 0x004 d)
  | .rdLength d => .host (hostWord false 0x005 d)
  | .rdCsumRx d => .host (hostWord false 0x006 d)
  | .rdCsumCalc d => .host (hostWord false 0x007 d)
  | .rdKind d => .host (hostWord false 0x008 d)
  | .rdSuffixCnt d => .host (hostWord false 0x009 d)
  | .rdPayload i d => .host (hostWord false (1#1 ++ i) d)
  | .rdRsvd a d => .host (hostWord false (0#1 ++ a) d)

/-! ## The opcode map as a table (R75)

The decoder above reads fields. The table below is the map of R75 itself, with its own rule of choice, so that a
statement can say that the two agree on every word. -/

/-- A row of the opcode map: a word matches it when `(word & mask) == pattern` (R75). -/
structure Row (n : Nat) where
  mnemonic : Mnemonic
  pattern : BitVec n
  mask : BitVec n
deriving DecidableEq, Repr

/-- `(word & mask) == match` (R75). -/
def Row.matchesWord {n : Nat} (r : Row n) (w : BitVec n) : Bool := w &&& r.mask == r.pattern

/-- How many 1 bits the row's mask has (R75). -/
def Row.maskBits {n : Nat} (r : Row n) : Nat := (List.range n).countP (fun k => r.mask.getLsbD k)

/-- The rows of format SB (R75). -/
def beatRows : List (Row 10) :=
  [⟨.PUSH, 0x000, 0x300⟩, ⟨.BEAT_RSVD, 0x100, 0x300⟩, ⟨.PUSHL, 0x200, 0x300⟩, ⟨.EOB, 0x300, 0x300⟩]

/-- The rows of format HT (R75). -/
def hostRows : List (Row 18) :=
  [⟨.WR_CTRL, 0x20000, 0x3FF00⟩, ⟨.WR_IGN, 0x20000, 0x20000⟩, ⟨.RD_CTRL, 0x00000, 0x3FF00⟩,
   ⟨.RD_STATUS, 0x00100, 0x3FF00⟩, ⟨.RD_ERRCODE, 0x00200, 0x3FF00⟩, ⟨.RD_HEAD, 0x00300, 0x3FF00⟩,
   ⟨.RD_TYPE, 0x00400, 0x3FF00⟩, ⟨.RD_LENGTH, 0x00500, 0x3FF00⟩, ⟨.RD_CSUM_RX, 0x00600, 0x3FF00⟩,
   ⟨.RD_CSUM_CALC, 0x00700, 0x3FF00⟩, ⟨.RD_KIND, 0x00800, 0x3FF00⟩, ⟨.RD_SUFFIX_CNT, 0x00900, 0x3FF00⟩,
   ⟨.RD_PAYLOAD, 0x10000, 0x30000⟩, ⟨.RD_RSVD, 0x00000, 0x30000⟩]

end Sys2Proof
end

