-- ==== Sys2Proof/Config.lean ====
section
/-! DEFINITION. The implementation parameters of 00_scope.md R6: the constants the spec fixes, and the two it leaves
OPEN (`FPCV_BASE` and `DONE_ROUTING`), which have no body, so that no proof can rest on a value of theirs. -/

namespace Sys2Proof.Config

/-- `START_MARKER` (R6). UNVERIFIED: the spec fixes the value and says that it is unaudited (N2, I8; log entry 16). -/
def startMarker : Byte := 0xBB

/-- `TAG_TYPE`, the type code of a TagData frame (R6). UNVERIFIED as `startMarker` is (N2, I8; log entry 16). -/
def tagType : Byte := 0x17

/-- `HDR_LEN`: head, type and length (R6). -/
def hdrLen : Nat := 3

/-- `PAYLOAD_MAX`, the number of cells of `PAY` (R6, R20). -/
def payloadMax : Nat := 255

/-- What a `PAY` cell reads as when nothing has written it. DESIGN CHOICE: R43 leaves the cells unspecified at
power-on and R183 lets a model fix them to zeros (log entry 1). -/
def payPowerOn : Byte := 0x00

/-- `FPCV_BASE`: where the platform puts the register block. OPEN in the spec (R6, R53, D10, I15), so it is a free
value (log entry 8). -/
opaque fpcvBase : Nat

/-- The ways a platform may route `done_o` to a processor: 'an interrupt controller line, polling, or nothing' (R163). -/
inductive DoneRouting where
  | interruptLine (n : Nat)
  | polling
  | nothing
deriving DecidableEq, Repr, Inhabited

/-- `DONE_ROUTING`. OPEN in the spec (R163, D18, I15), so it is a free value (log entry 9). -/
opaque doneRouting : DoneRouting

end Sys2Proof.Config
end

