-- ==== Sys2Proof/Machine/State.lean ====
section
/-! DEFINITION. The state of FPCV as plain data: the record of 10_state.md R20, the reset input, the operations the two
ports' agents offer, the interleaving they come in, and the bytes reads have returned. -/

namespace Sys2Proof.Machine

/-- `PHASE`: the aligner's eight phases, what FPCV has in place of a program counter (R22, R23). -/
inductive Phase where
  /-- No buffer in progress; the next byte is raw[0]. -/
  | idle
  /-- The next byte is raw[1], the type. -/
  | type
  /-- The next byte is raw[2], the length. -/
  | len
  /-- The next byte is raw[3+CNT], a payload byte. -/
  | data
  /-- The next byte is raw[3+LENR], the checksum. -/
  | csum
  /-- The whole frame is received; trailing bytes are counted and dropped. -/
  | suffix
  /-- The head was not START_MARKER; bytes are dropped. -/
  | drain
  /-- A result is latched and waits for the host; beats are held. -/
  | done
deriving DecidableEq, Repr

/-- The payload buffer `PAY` as (index, byte) pairs in canonical form: indices strictly rising and below 255, and no
pair equal to what an unlisted cell reads as (`Memory.wf` in Machine/Ops.lean). -/
abbrev Memory := List Host.Cell

/-- FPCV's state record, 'the record below and nothing else' (R20). The spec writes `x[NAME]` for a field of it (R9). -/
structure Regs where
  /-- `PHASE` -/
  phase : Phase
  /-- `HDRBAD`: 1 when raw[0] is not START_MARKER -/
  hdrbad : Bool
  /-- `HEADR`: raw[0] -/
  headr : Byte
  /-- `TYPER`: raw[1] -/
  typer : Byte
  /-- `LENR`: raw[2], the declared payload length -/
  lenr : Byte
  /-- `CNT`: payload bytes received so far -/
  cnt : Byte
  /-- `CSRX`: raw[3+length], the received checksum -/
  csrx : Byte
  /-- `ACC`: the checksum engine's running sum -/
  acc : Byte
  /-- `SFX`: number of suffix bytes, saturating at 255 -/
  sfx : Byte
  /-- `ERRC`: the decode error latched at end of buffer -/
  errc : BitVec 2
  /-- `OKF`: the buffer decoded without a DecodeError -/
  okf : Bool
  /-- `CSV`: checksum_valid -/
  csv : Bool
  /-- `BERR`: sticky, a reserved beat was accepted -/
  berr : Bool
  /-- `PAY[0..254]` -/
  pay : Memory
deriving DecidableEq, Repr

/-- A host access as the platform hands it to the port: the host word and how many bytes it moves. R52 and R55 give
every access one byte, and a model refuses any other width (log entry 6). -/
structure HostAccess where
  bytes : Nat
  word : HostWord
deriving DecidableEq, Repr

/-- Whose operation comes next: one element of the interleaving of R60, with the reset agent's edges among them (R14). -/
inductive Turn where
  /-- The transport offers the first beat of `stream`. -/
  | beat
  /-- The host issues the first access of `host`. -/
  | host
  /-- The reset agent drives `rst` to this level at a clock edge (R180). -/
  | reset (level : Bool)
deriving DecidableEq, Repr

/-- The state of FPCV and of what its agents offer it. -/
structure State where
  /-- The record of R20. -/
  x : Regs
  /-- `in_reset`, the level of the reset input `rst` (R42, R180). -/
  rst : Bool
  /-- The beats the transport offers, oldest first. A held beat stays at the head (R60, R100). -/
  stream : List BeatWord
  /-- The accesses the host issues, oldest first (R60). -/
  host : List HostAccess
  /-- The MODEL's field: the interleaving of the agents' operations, next first (R60; log entry 3). -/
  turns : List Turn
  /-- The MODEL's field: the bytes RDATA that reads have returned, newest first (R74, R130; log entry 2). -/
  rdata : List Byte
deriving DecidableEq, Repr

/-- Why a step faults. FPCV itself never traps (R160). -/
inductive Fault where
  /-- A write to `PAY[255]`, a cell that does not exist (R41). Raised by the byte step in phase DATA with CNT = 255, which
  no reachable state has (R24 item 1). Safe: the model stops where the spec says nothing (log entry 7). -/
  | noPayloadCell
deriving DecidableEq, Repr

/-- Why a step is refused. -/
inductive Refusal where
  /-- An operation with no meaning yet. No arm of `exec` answers with it. Safe. -/
  | notModelled (mnemonic : String)
  /-- A host access whose width is not one byte, refused by `step` as R52 demands. Safe (log entry 6). -/
  | hostAccessWidth (bytes : Nat)
deriving DecidableEq, Repr

/-- The record right after reset (R43). `PAY` lists nothing: every cell reads `Config.payPowerOn` (log entry 1). -/
def Regs.atReset : Regs where
  phase := .idle
  hdrbad := false
  headr := 0x00
  typer := 0x00
  lenr := 0x00
  cnt := 0x00
  csrx := 0x00
  acc := 0x00
  sfx := 0x00
  errc := 0
  okf := false
  csv := false
  berr := false
  pay := []

/-- FPCV right after reset: the record of R43, reset released, and nothing offered on either port. -/
def State.reset : State where
  x := Regs.atReset
  rst := false
  stream := []
  host := []
  turns := []
  rdata := []

/-! The named updates of the state; their field lemmas are in Laws/State.lean. -/

/-- The state with another record. -/
def State.withRegs (s : State) (x : Regs) : State := { s with x := x }

/-- The state after RDATA = `v` was returned to the host (R130). -/
def State.returning (s : State) (v : Byte) : State := { s with rdata := v :: s.rdata }

/-- The state after its first turn is spent. -/
def State.passTurn (s : State) : State := { s with turns := s.turns.tail }

/-- The state after the transport's first beat is accepted off the port. -/
def State.dropBeat (s : State) : State := { s with stream := s.stream.tail }

/-- The state after the host's first access is accepted off the port. -/
def State.dropAccess (s : State) : State := { s with host := s.host.tail }

/-- The state with the reset input at a level. -/
def State.withRst (s : State) (level : Bool) : State := { s with rst := level }

end Sys2Proof.Machine
end

