-- ==== Sys2Proof/Machine/Ops.lean ====
section
/-! DEFINITION. The named operations over the record: the payload buffer, the checksum engine (R101), the aligner's byte
step (R104 to R112), the end of a buffer (R102, R103), CLEAR and ACK (R132), and reset (R180).

What other hardware calls taking an exception is here `endOfBuffer` (R166), and what it calls returning from one is
`ackResult` (R167). -/

namespace Sys2Proof.Machine

/-! ## The payload buffer (R50) -/

/-- The canonical form of a payload buffer: indices strictly rising, each naming a cell of `PAY` (0..254, R20), and no
pair equal to what an unlisted cell reads as. -/
abbrev Memory.wf (m : Memory) : Prop :=
  m.Pairwise (fun c d => c.1 < d.1) ∧ ∀ c ∈ m, c.1 < Config.payloadMax ∧ c.2 ≠ Config.payPowerOn

/-- What cell `i` holds (R9: `PAY[i]`). -/
def Memory.read : Memory → Nat → Byte
  | [], _ => Config.payPowerOn
  | (j, v) :: m, i => if i = j then v else Memory.read m i

/-- The pair for cell `i` holding `v`, or nothing where an unlisted cell reads as `v` already. -/
def Memory.cell (i : Nat) (v : Byte) : Memory := if v = Config.payPowerOn then [] else [(i, v)]

/-- `PAY[i] <- v` (R9), in canonical form. -/
def Memory.write : Memory → Nat → Byte → Memory
  | [], i, v => Memory.cell i v
  | (j, u) :: m, i, v =>
    if i < j then Memory.cell i v ++ (j, u) :: m
    else if i = j then Memory.cell i v ++ m
    else (j, u) :: Memory.write m i v

/-- `PAY[i] <- v` with the index range of R9 (0 <= i <= 254): there is no cell 255 (R41; log entry 7). -/
def Regs.writePay (x : Regs) (i : Byte) (v : Byte) : Except Fault Regs :=
  if i.toNat < Config.payloadMax then .ok { x with pay := x.pay.write i.toNat v } else .error .noPayloadCell

/-! ## The checksum engine (R101) -/

/-- `CsumAdd(acc, b) = (zext_9(acc) + zext_9(b))[7:0]`: the 8-bit adder that drops its carry (R101). -/
def csumAdd (acc b : Byte) : Byte := (acc.zeroExtend 9 + b.zeroExtend 9).extractLsb' 0 8

/-! ## The aligner's byte step (R104 to R112) -/

/-- Phase IDLE: `b` is raw[0], and a buffer starts (R104). -/
def takeHead (b : Byte) (x : Regs) : Regs :=
  { x with
    headr := b, hdrbad := b != Config.startMarker
    typer := 0x00, lenr := 0x00, cnt := 0x00, csrx := 0x00
    acc := 0x00, sfx := 0x00, errc := 0, okf := false, csv := false
    phase := .type }

/-- Phase TYPE: `b` is raw[1] (R105). -/
def takeType (b : Byte) (x : Regs) : Regs := { x with typer := b, acc := csumAdd x.acc b, phase := .len }

/-- Phase LEN: `b` is raw[2], an unsigned count (R106). -/
def takeLength (b : Byte) (x : Regs) : Regs :=
  { x with
    lenr := b, acc := csumAdd x.acc b, cnt := 0x00
    phase := if x.hdrbad then .drain else if b = 0x00 then .csum else .data }

/-- Phase DATA: `b` is raw[3+CNT]; the comparison is done at 9 bits on the value of CNT before the operation (R107). -/
def takeData (b : Byte) (x : Regs) : Except Fault Regs :=
  (x.writePay x.cnt b).map fun y =>
    { y with
      acc := csumAdd x.acc b, cnt := x.cnt + 1
      phase := if x.cnt.zeroExtend 9 + 1 = x.lenr.zeroExtend 9 then .csum else .data }

/-- Phase CSUM: `b` is raw[3+length] (R108). -/
def takeCsum (b : Byte) (x : Regs) : Regs := { x with csrx := b, phase := .suffix }

/-- Phase SUFFIX: `b` is a trailing byte, counted at saturation 255 and dropped (R109). -/
def takeSuffix (x : Regs) : Regs := { x with sfx := if x.sfx = 0xFF then 0xFF else x.sfx + 1 }

/-- `TakeByte(b)`: the aligner gives the byte its place in the frame by the phase (R104 to R110). In DONE it is never
applied, since no beat is accepted there (R111; log entry 18). -/
def takeByte (b : Byte) (x : Regs) : Except Fault Regs :=
  match x.phase with
  | .idle => .ok (takeHead b x)
  | .type => .ok (takeType b x)
  | .len => .ok (takeLength b x)
  | .data => takeData b x
  | .csum => .ok (takeCsum b x)
  | .suffix => .ok (takeSuffix x)
  | .drain => .ok x
  | .done => .ok x

/-! ## End of buffer: a result is latched (R102, R103, R166) -/

/-- `raise TooShort()` (R103): ERRCODE 0x01. -/
def raiseTooShort (x : Regs) : Regs := { x with errc := 1, okf := false, csv := false, phase := .done }

/-- `raise BadStartMarker()` (R103): ERRCODE 0x02. -/
def raiseBadStartMarker (x : Regs) : Regs := { x with errc := 2, okf := false, csv := false, phase := .done }

/-- `CompleteOk()` (R103). -/
def completeOk (x : Regs) : Regs := { x with errc := 0, okf := true, csv := x.acc == x.csrx, phase := .done }

/-- `EndOfBuffer()`: the phase the aligner stands in decides the result (R102). DONE is unreachable there, since no beat
is accepted in it (R100; log entry 18). -/
def endOfBuffer (x : Regs) : Regs :=
  match x.phase with
  | .idle => raiseTooShort x
  | .type => raiseTooShort x
  | .len => raiseTooShort x
  | .drain => raiseBadStartMarker x
  | .data => raiseTooShort x
  | .csum => raiseTooShort x
  | .suffix => completeOk x
  | .done => x

/-- The reserved beat: `x[BERR] <- 1` (R116). -/
def markReserved (x : Regs) : Regs := { x with berr := true }

/-! ## CTRL's actions and reset (R132, R167, R180) -/

/-- CLEAR: every element but `PAY` takes its reset value (R34, R132). -/
def clearAll (x : Regs) : Regs :=
  { x with
    phase := .idle, hdrbad := false, headr := 0x00, typer := 0x00, lenr := 0x00
    cnt := 0x00, csrx := 0x00, acc := 0x00, sfx := 0x00
    errc := 0, okf := false, csv := false, berr := false }

/-- ACK: releases a latched result, and does nothing outside DONE (R34, R132, R167). -/
def ackResult (x : Regs) : Regs := if x.phase = .done then { x with phase := .idle } else x

/-- A clock edge with `rst` at 1: every element but `PAY` takes its reset value of R43, and `PAY` is left as it is (R180). -/
def resetEdge (x : Regs) : Regs := { Regs.atReset with pay := x.pay }

end Sys2Proof.Machine
end

