-- ==== Sys2Proof/Machine/Flags.lean ====
section
/-! DEFINITION. The output signals (10_state.md R42, R74) and the STATUS register's bits (R35). -/

namespace Sys2Proof.Machine

/-- `Visible()`: a successfully decoded frame is latched (10_state.md section 3). -/
def Regs.visible (x : Regs) : Bool := x.phase == .done && x.okf

/-- STATUS.BUSY: PHASE is neither IDLE nor DONE (R35). -/
def Regs.busy (x : Regs) : Bool := x.phase != .idle && x.phase != .done

/-- `done_o`, the same as STATUS.DONE (R42, R163). -/
def Regs.doneO (x : Regs) : Bool := x.phase == .done

/-- `ReadValue_STATUS()`: bits 7:5 zero, then BEAT_ERR, CSUM_VALID, OK, DONE, BUSY (R35). -/
def Regs.statusValue (x : Regs) : Byte :=
  0b000#3 ++ BitVec.ofBool x.berr ++ BitVec.ofBool (x.visible && x.csv) ++ BitVec.ofBool x.visible
    ++ BitVec.ofBool x.doneO ++ BitVec.ofBool x.busy

/-- `si_ready`: the stream port accepts a beat (R42, R100). -/
def State.siReady (s : State) : Bool := s.x.phase != .done && !s.rst

/-- `hr_ready`: the host port accepts a transaction whenever reset is not asserted (R74, R130). -/
def State.hrReady (s : State) : Bool := !s.rst

/-- `done_o` (R42). -/
def State.doneO (s : State) : Bool := s.x.doneO

end Sys2Proof.Machine
end

