-- ==== Sys2Proof/Machine/Operands.lean ====
section
/-! DEFINITION. The operand forms of 30_encoding.md R76 and how each port accepts an operation (R100, R130): what every
meaning is written over. -/

namespace Sys2Proof.Machine

/-- `CLEAR = WDATA[0]` of WR_CTRL (R34, R76). -/
def ctrlClear (v : Byte) : Bool := v.getLsbD 0

/-- `ACK = WDATA[1]` of WR_CTRL (R34, R76). -/
def ctrlAck (v : Byte) : Bool := v.getLsbD 1

/-- A beat on the stream port. It is accepted only when `si_ready` is 1; otherwise it is held: it has no step and changes
no state (R10, R100; log entry 4). -/
def acceptBeat (f : Regs → Except Fault Regs) (s : State) : Host.Outcome State Fault Refusal :=
  if s.siReady then
    match f s.x with
    | .ok x => .next (s.withRegs x)
    | .error e => .fault e
  else .next s

/-- A host read returns RDATA, computed from the state before the operation, and writes no state (R130, R146). While
reset is asserted the port accepts nothing (R180). -/
def acceptRead (v : Regs → Byte) (s : State) : Host.Outcome State Fault Refusal :=
  if s.hrReady then .next (s.returning (v s.x)) else .next s

/-- A host write returns nothing (R130). While reset is asserted the port accepts nothing (R180). -/
def acceptWrite (f : Regs → Regs) (s : State) : Host.Outcome State Fault Refusal :=
  if s.hrReady then .next (s.withRegs (f s.x)) else .next s

end Sys2Proof.Machine
end

