-- ==== Sys2Proof/Machine/Beats.lean ====
section
/-! DEFINITION. The meanings of the stream beats PUSH, PUSHL, EOB and BEAT_RSVD (40_aligner_checksum.md R113 to R116). -/

namespace Sys2Proof.Machine

/-- PUSH b: `TakeByte(b)` (R113). -/
def execPush (b : Byte) (s : State) : Host.Outcome State Fault Refusal := acceptBeat (takeByte b) s

/-- PUSHL b: `TakeByte(b); EndOfBuffer()`, one atomic operation whose second procedure reads the state the first leaves
(R114, C8). -/
def execPushl (b : Byte) (s : State) : Host.Outcome State Fault Refusal :=
  acceptBeat (fun x => (takeByte b x).map endOfBuffer) s

/-- EOB: `EndOfBuffer()`; its DATA is ignored (R115). -/
def execEob (s : State) : Host.Outcome State Fault Refusal := acceptBeat (fun x => .ok (endOfBuffer x)) s

/-- BEAT_RSVD: `x[BERR] <- 1`; its DATA is ignored (R116). -/
def execBeatRsvd (s : State) : Host.Outcome State Fault Refusal := acceptBeat (fun x => .ok (markReserved x)) s

end Sys2Proof.Machine
end

