-- ==== Sys2Proof/Machine/Registers.lean ====
section
/-! DEFINITION. The host-visible registers: their read values (10_state.md R34 to R41), the register map (R30), and the
host's byte access `MemRead` and `MemWrite` with the width rule (R9, R52). -/

namespace Sys2Proof.Machine

/-! ## The read values -/

/-- A field that reads only while a successfully decoded frame is latched, else 0x00 (R37, D9). -/
def Regs.masked (x : Regs) (v : Byte) : Byte := if x.visible then v else 0x00

/-- CTRL reads 0x00 in every state (R34). -/
def Regs.readCtrl (_x : Regs) : Byte := 0x00

/-- `ReadValue_STATUS()` (R35). -/
def Regs.readStatus (x : Regs) : Byte := x.statusValue

/-- `ReadValue_ERRCODE()` (R36). -/
def Regs.readErrcode (x : Regs) : Byte := if x.phase = .done then x.errc.zeroExtend 8 else 0x00

/-- `ReadValue_HEAD()` (R37). -/
def Regs.readHead (x : Regs) : Byte := x.masked x.headr

/-- `ReadValue_TYPE()` (R37). -/
def Regs.readType (x : Regs) : Byte := x.masked x.typer

/-- `ReadValue_LENGTH()` (R37). -/
def Regs.readLength (x : Regs) : Byte := x.masked x.lenr

/-- `ReadValue_CSUM_RX()` (R37). -/
def Regs.readCsumRx (x : Regs) : Byte := x.masked x.csrx

/-- `ReadValue_CSUM_CALC()` (R37). -/
def Regs.readCsumCalc (x : Regs) : Byte := x.masked x.acc

/-- `ReadValue_KIND()`: 0x01 for TagData, 0x00 for Unknown and when nothing is visible (R38). -/
def Regs.readKind (x : Regs) : Byte := if x.visible && x.typer == Config.tagType then 0x01 else 0x00

/-- `ReadValue_SUFFIX_CNT()` (R39). -/
def Regs.readSuffixCnt (x : Regs) : Byte := x.masked x.sfx

/-- `ReadValue_PAYLOAD(i)`: payload byte `i` when a frame is visible and `i < LENR`, else 0x00 (R41). Index 255 never
reaches `PAY`, since LENR is at most 255. -/
def Regs.readPayload (i : Byte) (x : Regs) : Byte := if x.visible && i.ult x.lenr then x.pay.read i.toNat else 0x00

/-- A reserved offset reads 0x00 in every state (R40). -/
def Regs.readReserved (_x : Regs) : Byte := 0x00

/-! ## The register map (R30) -/

/-- The registers of the 9-bit host space (R30). -/
inductive HostReg where
  | ctrl | status | errcode | head | type | length | csumRx | csumCalc | kind | suffixCnt
  | reserved
  | payload (i : Byte)
deriving DecidableEq, Repr

/-- The register at an offset: every offset of the 9-bit space has one (R30). -/
def hostRegAt (a : Offset) : HostReg :=
  if a.getLsbD 8 then .payload (a.extractLsb' 0 8)
  else if a = 0x000#9 then .ctrl
  else if a = 0x001#9 then .status
  else if a = 0x002#9 then .errcode
  else if a = 0x003#9 then .head
  else if a = 0x004#9 then .type
  else if a = 0x005#9 then .length
  else if a = 0x006#9 then .csumRx
  else if a = 0x007#9 then .csumCalc
  else if a = 0x008#9 then .kind
  else if a = 0x009#9 then .suffixCnt
  else .reserved

/-- The read value of a register (R30's 'read value (rule)' column). -/
def Regs.readReg (x : Regs) : HostReg → Byte
  | .ctrl => x.readCtrl
  | .status => x.readStatus
  | .errcode => x.readErrcode
  | .head => x.readHead
  | .type => x.readType
  | .length => x.readLength
  | .csumRx => x.readCsumRx
  | .csumCalc => x.readCsumCalc
  | .kind => x.readKind
  | .suffixCnt => x.readSuffixCnt
  | .reserved => x.readReserved
  | .payload i => x.readPayload i

/-- The byte the host reads at an offset (R30). -/
def Regs.readAt (x : Regs) (a : Offset) : Byte := x.readReg (hostRegAt a)

/-! ## Writes -/

/-- The effect of `WR CTRL, v`: CLEAR wins and includes ACK's effect; bits 7:2 are ignored (R34, R132). -/
def ctrlWrite (v : Byte) (x : Regs) : Regs :=
  if ctrlClear v then clearAll x else if ctrlAck v then ackResult x else x

/-- A write to any offset but 0x000 changes nothing (R30, R133). -/
def ignoredWrite (x : Regs) : Regs := x

/-- The host's write of a byte at an offset: the only write with an effect is CTRL's (R21, R57). -/
def Regs.writeAt (x : Regs) (a : Offset) (v : Byte) : Regs :=
  match hostRegAt a with
  | .ctrl => ctrlWrite v x
  | .status | .errcode | .head | .type | .length | .csumRx | .csumCalc | .kind | .suffixCnt | .reserved
  | .payload _ => ignoredWrite x

/-- `MemRead(addr, n)` of R9: n is always 1, and another width is refused (R52). -/
def memRead (a : Offset) (n : Nat) (x : Regs) : Except Refusal Byte :=
  if n = 1 then .ok (x.readAt a) else .error (.hostAccessWidth n)

/-- `MemWrite(addr, n, v)` of R9: n is always 1, and another width is refused (R52). -/
def memWrite (a : Offset) (n : Nat) (v : Byte) (x : Regs) : Except Refusal Regs :=
  if n = 1 then .ok (x.writeAt a v) else .error (.hostAccessWidth n)

end Sys2Proof.Machine
end

