-- ==== Sys2Proof/Machine/HostReads.lean ====
section
/-! DEFINITION. The meanings of the twelve host reads (41_host_ops.md R134 to R145). WDATA is ignored by every one. -/

namespace Sys2Proof.Machine

/-- RD CTRL (R134). -/
def execRdCtrl (s : State) : Host.Outcome State Fault Refusal := acceptRead Regs.readCtrl s

/-- RD STATUS (R135). -/
def execRdStatus (s : State) : Host.Outcome State Fault Refusal := acceptRead Regs.readStatus s

/-- RD ERRCODE (R136). -/
def execRdErrcode (s : State) : Host.Outcome State Fault Refusal := acceptRead Regs.readErrcode s

/-- RD HEAD (R137). -/
def execRdHead (s : State) : Host.Outcome State Fault Refusal := acceptRead Regs.readHead s

/-- RD TYPE (R138). -/
def execRdType (s : State) : Host.Outcome State Fault Refusal := acceptRead Regs.readType s

/-- RD LENGTH (R139). -/
def execRdLength (s : State) : Host.Outcome State Fault Refusal := acceptRead Regs.readLength s

/-- RD CSUM_RX (R140). -/
def execRdCsumRx (s : State) : Host.Outcome State Fault Refusal := acceptRead Regs.readCsumRx s

/-- RD CSUM_CALC (R141). -/
def execRdCsumCalc (s : State) : Host.Outcome State Fault Refusal := acceptRead Regs.readCsumCalc s

/-- RD KIND (R142). -/
def execRdKind (s : State) : Host.Outcome State Fault Refusal := acceptRead Regs.readKind s

/-- RD SUFFIX_CNT (R143). -/
def execRdSuffixCnt (s : State) : Host.Outcome State Fault Refusal := acceptRead Regs.readSuffixCnt s

/-- RD PAYLOAD[i] (R144). -/
def execRdPayload (i : Byte) (s : State) : Host.Outcome State Fault Refusal := acceptRead (Regs.readPayload i) s

/-- RD @a with a in 0x00A..0x0FF (R145). -/
def execRdRsvd (s : State) : Host.Outcome State Fault Refusal := acceptRead Regs.readReserved s

end Sys2Proof.Machine
end

