-- ==== Sys2Proof/Machine/HostWrites.lean ====
section
/-! DEFINITION. The meanings of the host writes WR_CTRL and WR_IGN (41_host_ops.md R132, R133). -/

namespace Sys2Proof.Machine

/-- WR CTRL, v: CLEAR or ACK (R132). -/
def execWrCtrl (v : Byte) (s : State) : Host.Outcome State Fault Refusal := acceptWrite (ctrlWrite v) s

/-- WR @a, v with a not 0x000: no change; neither operand is read (R133). -/
def execWrIgn (s : State) : Host.Outcome State Fault Refusal := acceptWrite ignoredWrite s

end Sys2Proof.Machine
end

