-- ==== Sys2Proof/Machine/Dispatch.lean ====
section
/-! DEFINITION. One arm for each operation of the opcode table, each a direct call of its meaning. -/

namespace Sys2Proof.Machine

def exec (i : Instr) (s : State) : Host.Outcome State Fault Refusal :=
  match i with
  | .push b => Sys2Proof.Machine.execPush b s
  | .beatRsvd _ => Sys2Proof.Machine.execBeatRsvd s
  | .pushl b => Sys2Proof.Machine.execPushl b s
  | .eob _ => Sys2Proof.Machine.execEob s
  | .wrCtrl v => Sys2Proof.Machine.execWrCtrl v s
  | .wrIgn _ _ => Sys2Proof.Machine.execWrIgn s
  | .rdCtrl _ => Sys2Proof.Machine.execRdCtrl s
  | .rdStatus _ => Sys2Proof.Machine.execRdStatus s
  | .rdErrcode _ => Sys2Proof.Machine.execRdErrcode s
  | .rdHead _ => Sys2Proof.Machine.execRdHead s
  | .rdType _ => Sys2Proof.Machine.execRdType s
  | .rdLength _ => Sys2Proof.Machine.execRdLength s
  | .rdCsumRx _ => Sys2Proof.Machine.execRdCsumRx s
  | .rdCsumCalc _ => Sys2Proof.Machine.execRdCsumCalc s
  | .rdKind _ => Sys2Proof.Machine.execRdKind s
  | .rdSuffixCnt _ => Sys2Proof.Machine.execRdSuffixCnt s
  | .rdPayload k _ => Sys2Proof.Machine.execRdPayload k s
  | .rdRsvd _ _ => Sys2Proof.Machine.execRdRsvd s

end Sys2Proof.Machine
end

