-- ==== Sys2Proof/Machine/Ports.lean ====
section
/-! DEFINITION. What the two ports and the reset input do with one turn of the interleaving (20_memory.md R60,
40_aligner_checksum.md R100, 41_host_ops.md R130, 70_reset_and_hazards.md R180). The turn itself is already spent in the
state each of these is given. -/

namespace Sys2Proof.Machine

/-- A clock edge at which no operation is accepted. With `rst` at 1 it is an edge of R180, otherwise it changes nothing. -/
def edgeWithoutOperation (s : State) : State := if s.rst then s.withRegs (resetEdge s.x) else s

/-- The transport's turn. An offered beat is accepted when `si_ready` is 1 and its operation runs. Otherwise the beat is
held: it stays first in the stream's order, and FPCV does not change (R60, R100, R180; log entry 4). -/
def offerBeat (s : State) : Host.Outcome State Fault Refusal :=
  match s.stream with
  | [] => .next (edgeWithoutOperation s)
  | w :: _ => if s.siReady then exec (decodeBeat w) s.dropBeat else .next (edgeWithoutOperation s)

/-- The host's turn. An issued access of one byte is accepted when `hr_ready` is 1 and its operation runs. An access of
another width is refused (R52; log entry 6). While reset is asserted the access stays the host's (R180). -/
def offerAccess (s : State) : Host.Outcome State Fault Refusal :=
  match s.host with
  | [] => .next (edgeWithoutOperation s)
  | a :: _ =>
    if s.hrReady then
      if a.bytes = 1 then exec (decodeHost a.word) s.dropAccess else .refused (.hostAccessWidth a.bytes)
    else .next (edgeWithoutOperation s)

/-- The reset agent's turn: an edge with `rst` at 1 sets the record to its reset values and keeps `PAY`, and an edge with
`rst` at 0 releases reset. What the ports' agents offer stays theirs (R180, R181). -/
def driveReset (level : Bool) (s : State) : State :=
  if level then (s.withRegs (resetEdge s.x)).withRst true else s.withRst false

end Sys2Proof.Machine
end

