-- ==== Sys2Proof/Machine/Step.lean ====
section
/-! DEFINITION. One step of the machine: the next turn of the interleaving (00_scope.md R10, R14, 20_memory.md R60). -/

namespace Sys2Proof.Machine

/-- One step: the next turn is spent, and its agent's operation runs if its port accepts it. With no turn left no agent
does anything, and FPCV takes no step of its own (R14; log entry 13). -/
def step (s : State) : Host.Outcome State Fault Refusal :=
  match s.turns with
  | [] => .next s
  | .beat :: _ => offerBeat s.passTurn
  | .host :: _ => offerAccess s.passTurn
  | .reset level :: _ => .next (driveReset level s.passTurn)

/-- The state in which the next turn offers exactly this word on its port: a beat of the transport, or a one-byte access
of the host. FPCV fetches nothing, so this stands for the outside agent that issues the operation (R13, R14; log entry
10). Nothing else of the state is changed. -/
def State.withFetchWord (s : State) (nbits w : Nat) : State :=
  match tablePort nbits with
  | .stream => { s with stream := BitVec.ofNat 10 w :: s.stream, turns := .beat :: s.turns }
  | .host => { s with host := ⟨1, BitVec.ofNat 18 w⟩ :: s.host, turns := .host :: s.turns }

end Sys2Proof.Machine
end

