-- ==== Sys2Proof/Machine/Assembler.lean ====
section
/-! DEFINITION. The assembler notation of 30_encoding.md R79 and its pseudo-instructions (R80). A line of text becomes the
words it issues on the two ports; labels, destinations and `BZ` belong to the host's harness, and FPCV executes none of
them (R79). Names are lists of characters. -/

namespace Sys2Proof.Machine

/-- A name of the notation: a mnemonic, a register, a label or a harness variable. -/
abbrev Name := List Char

/-- What one line of the notation stands for. -/
inductive AsmItem where
  /-- A label of the host's harness. -/
  | label (n : Name)
  /-- A word issued on a port, with the harness variable that takes RDATA, if the line names one. -/
  | word (w : PortWord) (dest : Option Name)
  /-- The harness's branch `BZ s, mask, label`: taken when `s & mask == 0`. -/
  | branchIfZero (s : Name) (mask : Byte) (target : Name)
deriving DecidableEq, Repr

/-! ## Operations as words -/

/-- The word of an operation, with no destination. -/
def asmWord (i : Instr) : AsmItem := .word (encode i) none

/-- `SEND b0, …, b(n-1)`: PUSH for every byte but the last, PUSHL for the last, and EOB for no bytes (R80). -/
def sendOps : List Byte → List Instr
  | [] => [.eob 0x00]
  | [b] => [.pushl b]
  | b :: c :: bs => .push b :: sendOps (c :: bs)

/-- The checksum byte `FRAME` computes: `(t + L + d0 + … + d(L-1)) mod 256` (R80). -/
def frameChecksum (t : Byte) (ds : List Byte) : Byte :=
  BitVec.ofNat 8 ((t.toNat + ds.length + (ds.map BitVec.toNat).sum) % 256)

/-- `FRAME t, [d0, …, d(L-1)], c`: the frame's bytes sent as one buffer; more than 255 payload bytes are refused (R80). -/
def frameOps (t : Byte) (ds : List Byte) (c : Byte) : Option (List Instr) :=
  if ds.length ≤ 255 then some (sendOps (Config.startMarker :: t :: BitVec.ofNat 8 ds.length :: (ds ++ [c]))) else none

/-- `ACK` is `WR CTRL, 0x02` (R80). -/
def ackOp : Instr := .wrCtrl 0x02

/-- `CLEAR` is `WR CTRL, 0x01` (R80). -/
def clearOp : Instr := .wrCtrl 0x01

/-! ## Tokens -/

/-- A token of a line (R79). -/
inductive Token where
  | name (n : Name)
  | number (n : Nat)
  | comma | lbracket | rbracket | arrow | colon | atSign
deriving DecidableEq, Repr

/-- The value of a digit in base 16, none for another character. -/
def digitValue (c : Char) : Option Nat :=
  let n := c.toNat
  if 48 ≤ n ∧ n ≤ 57 then some (n - 48)
  else if 65 ≤ n ∧ n ≤ 70 then some (n - 55)
  else if 97 ≤ n ∧ n ≤ 102 then some (n - 87)
  else none

/-- The number that digits of a base spell, `acc` being what stands before them. -/
def numberFrom (base : Nat) : Nat → List Char → Option Nat
  | acc, [] => some acc
  | acc, c :: cs =>
    match digitValue c with
    | some d => if d < base then numberFrom base (acc * base + d) cs else none
    | none => none

/-- A number: `0x` hexadecimal or decimal (R7, R79). -/
def parseNumber : List Char → Option Nat
  | [] => none
  | ['0', 'x'] => none
  | '0' :: 'x' :: cs => numberFrom 16 0 cs
  | c :: cs => numberFrom 10 0 (c :: cs)

/-- The characters of names and numbers. -/
def isNameChar (c : Char) : Bool :=
  let n := c.toNat
  (48 ≤ n && n ≤ 57) || (65 ≤ n && n ≤ 90) || (97 ≤ n && n ≤ 122) || c == '_'

/-- A run of name characters as a token: a number when it begins with a digit. -/
def runToken (cs : List Char) : Option Token :=
  match cs with
  | [] => none
  | c :: _ => if 48 ≤ c.toNat ∧ c.toNat ≤ 57 then (parseNumber cs).map .number else some (.name cs)

/-- The tokens so far with the pending run of name characters, kept in reverse, put before them. -/
def flushRun (run : List Char) (rest : Option (List Token)) : Option (List Token) :=
  match run, rest with
  | [], ts => ts
  | _, none => none
  | cs, some ts => (runToken cs.reverse).map (· :: ts)

/-- The token of a punctuation character. -/
def punctuation (c : Char) : Option Token :=
  if c = ',' then some .comma
  else if c = '[' then some .lbracket
  else if c = ']' then some .rbracket
  else if c = ':' then some .colon
  else if c = '@' then some .atSign
  else none

/-- A line's tokens; `;` starts a comment (R79). -/
def tokens : List Char → List Char → Option (List Token)
  | [], run => flushRun run (some [])
  | '-' :: '>' :: cs, run => flushRun run ((tokens cs []).map (.arrow :: ·))
  | c :: cs, run =>
    if c = ';' then flushRun run (some [])
    else if isNameChar c then tokens cs (c :: run)
    else if c = ' ' then flushRun run (tokens cs [])
    else match punctuation c with
      | some t => flushRun run ((tokens cs []).map (t :: ·))
      | none => none

/-! ## Operands -/

/-- A byte operand: a number outside 0..255 is refused (R79). -/
def byteOperand (n : Nat) : Option Byte := if n < 256 then some (BitVec.ofNat 8 n) else none

/-- The offset of a register named in R30. An unknown name is refused (R79). -/
def registerOffset (n : Name) : Option Offset :=
  if n = ['C', 'T', 'R', 'L'] then some 0x000
  else if n = ['S', 'T', 'A', 'T', 'U', 'S'] then some 0x001
  else if n = ['E', 'R', 'R', 'C', 'O', 'D', 'E'] then some 0x002
  else if n = ['H', 'E', 'A', 'D'] then some 0x003
  else if n = ['T', 'Y', 'P', 'E'] then some 0x004
  else if n = ['L', 'E', 'N', 'G', 'T', 'H'] then some 0x005
  else if n = ['C', 'S', 'U', 'M', '_', 'R', 'X'] then some 0x006
  else if n = ['C', 'S', 'U', 'M', '_', 'C', 'A', 'L', 'C'] then some 0x007
  else if n = ['K', 'I', 'N', 'D'] then some 0x008
  else if n = ['S', 'U', 'F', 'F', 'I', 'X', '_', 'C', 'N', 'T'] then some 0x009
  else none

/-- The offset of `PAYLOAD[i]`: an index outside 0..255 is refused (R79). -/
def payloadOffset (i : Nat) : Option Offset := if i < 256 then some (BitVec.ofNat 9 (0x100 + i)) else none

/-- The offset of `@n`, a raw 9-bit offset (R79; a larger number is refused, log entry 17). -/
def rawOffset (n : Nat) : Option Offset := if n < 512 then some (BitVec.ofNat 9 n) else none

/-- A `<reg>` operand at the head of some tokens, with the tokens after it (R79). -/
def regOperand : List Token → Option (Offset × List Token)
  | .name ['P', 'A', 'Y', 'L', 'O', 'A', 'D'] :: .lbracket :: .number i :: .rbracket :: ts =>
    (payloadOffset i).map fun a => (a, ts)
  | .name n :: ts => (registerOffset n).map fun a => (a, ts)
  | .atSign :: .number n :: ts => (rawOffset n).map fun a => (a, ts)
  | _ => none

/-- Byte operands with commas between them, to the end of the tokens. -/
def byteList : List Token → Option (List Byte)
  | [.number n] => (byteOperand n).map ([·])
  | .number n :: .comma :: ts =>
    match byteOperand n, byteList ts with
    | some b, some bs => some (b :: bs)
    | _, _ => none
  | _ => none

/-- Byte operands up to a closing bracket, with the tokens after it. -/
def bracketList : List Token → Option (List Byte × List Token)
  | .rbracket :: ts => some ([], ts)
  | .number n :: .rbracket :: ts => (byteOperand n).map fun b => ([b], ts)
  | .number n :: .comma :: .number k :: ts =>
    match byteOperand n, bracketList (.number k :: ts) with
    | some b, some (bs, rest) => some (b :: bs, rest)
    | _, _ => none
  | _ => none

/-! ## Lines -/

/-- `RD <reg>` or `RD <reg> -> <variable>` (R79). -/
def asmRead (ts : List Token) : Option (List AsmItem) :=
  match regOperand ts with
  | some (a, []) => some [.word (.host (hostWord false a 0x00)) none]
  | some (a, [.arrow, .name d]) => some [.word (.host (hostWord false a 0x00)) (some d)]
  | _ => none

/-- `WR <reg>, <byte>` (R79). -/
def asmWrite (ts : List Token) : Option (List AsmItem) :=
  match regOperand ts with
  | some (a, [.comma, .number n]) => (byteOperand n).map fun v => [.word (.host (hostWord true a v)) none]
  | _ => none

/-- `FRAME t, [d…]` and `FRAME t, [d…], c` (R80). -/
def asmFrame (ts : List Token) : Option (List AsmItem) :=
  match ts with
  | .number t :: .comma :: .lbracket :: rest =>
    match byteOperand t, bracketList rest with
    | some t, some (ds, []) => (frameOps t ds (frameChecksum t ds)).map (·.map asmWord)
    | some t, some (ds, [.comma, .number c]) =>
      match byteOperand c with
      | some c => (frameOps t ds c).map (·.map asmWord)
      | none => none
    | _, _ => none
  | _ => none

/-- `WAIT_DONE`: `w: RD STATUS -> s` then `BZ s, 0x02, w`, a loop of the host's harness (R80). -/
def waitDone : List AsmItem :=
  [.label ['w'], .word (encode (.rdStatus 0x00)) (some ['s']), .branchIfZero ['s'] 0x02 ['w']]

/-- The operation or pseudo-instruction of a line (R79, R80). -/
def asmOperation : List Token → Option (List AsmItem)
  | [] => some []
  | [.name ['P', 'U', 'S', 'H'], .number n] => (byteOperand n).map fun b => [asmWord (.push b)]
  | [.name ['P', 'U', 'S', 'H', 'L'], .number n] => (byteOperand n).map fun b => [asmWord (.pushl b)]
  | [.name ['E', 'O', 'B']] => some [asmWord (.eob 0x00)]
  | [.name ['B', 'E', 'A', 'T', '_', 'R', 'S', 'V', 'D']] => some [asmWord (.beatRsvd 0x00)]
  | [.name ['A', 'C', 'K']] => some [asmWord ackOp]
  | [.name ['C', 'L', 'E', 'A', 'R']] => some [asmWord clearOp]
  | [.name ['W', 'A', 'I', 'T', '_', 'D', 'O', 'N', 'E']] => some waitDone
  | [.name ['S', 'E', 'N', 'D']] => some ((sendOps []).map asmWord)
  | .name ['S', 'E', 'N', 'D'] :: ts => (byteList ts).map fun bs => (sendOps bs).map asmWord
  | .name ['F', 'R', 'A', 'M', 'E'] :: ts => asmFrame ts
  | .name ['R', 'D'] :: ts => asmRead ts
  | .name ['W', 'R'] :: ts => asmWrite ts
  | [.name ['B', 'Z'], .name s, .comma, .number m, .comma, .name l] =>
    (byteOperand m).map fun mask => [.branchIfZero s mask l]
  | _ => none

/-- One line of the notation, none where the assembler refuses it (R79, R80). -/
def assembleLine (line : List Char) : Option (List AsmItem) :=
  match tokens line [] with
  | some (.name l :: .colon :: ts) => (asmOperation ts).map (.label l :: ·)
  | some ts => asmOperation ts
  | none => none

end Sys2Proof.Machine
end

