-- ==== Sys2Proof/Machine/Platform.lean ====
section
/-! DEFINITION. What the spec says of the platform around FPCV: the block's place in the address map (R53, R58), the route
of `done_o` (R163), and the order of two operations at one clock edge (R61). -/

namespace Sys2Proof.Machine

/-- The offset `addr[8:0]` that the platform's address decoder hands FPCV, for a block of 512 bytes at `base` (R53). An
address outside the block is the platform's (R58). -/
def offsetInBlock (base addr : Nat) : Option Offset :=
  if base ≤ addr ∧ addr < base + 512 then some (BitVec.ofNat 9 (addr - base)) else none

/-- A processor's access of `bytes` bytes at a platform address, as it reaches the host port: none when the address is
outside the block at FPCV_BASE (R53, R170; log entry 8). -/
def platformAccess (we : Bool) (addr bytes : Nat) (v : Byte) : Option HostAccess :=
  (offsetInBlock Config.fpcvBase addr).map fun a => ⟨bytes, hostWord we a v⟩

/-- The interrupt line that `done_o` drives under a routing, with its level; none when the host polls or nothing is routed
(R163). -/
def routedDone (r : Config.DoneRouting) (s : State) : Option (Nat × Bool) :=
  match r with
  | .interruptLine n => some (n, s.doneO)
  | .polling => none
  | .nothing => none

/-- `done_o` as this platform routes it (R163, R184; log entry 9). -/
def platformNotification (s : State) : Option (Nat × Bool) := routedDone Config.doneRouting s

/-- The serial order of a beat and a host transaction accepted at one clock edge: read, then beat, then write (R61; log
entry 15). It is one of the interleavings of R60.

DESIGN CHOICE (log entry 24): for an ACK at the edge of a PUSHL or EOB the order is kept, so the ACK comes after the beat and
releases the result the beat has just latched. R61's last sentence says of such an ACK that it 'has no effect'. -/
def edgeTurns (w : HostWord) : List Turn := if hostWE w then [.beat, .host] else [.host, .beat]

/-- One reset operation of the reset agent, as the transaction model counts it: an edge with `rst` at 1, then its release
(R180; log entry 5). -/
def resetOperation : List Turn := [.reset true, .reset false]

end Sys2Proof.Machine
end

