-- ==== Sys2Proof/Machine/Reference.lean ====
section
/-! DEFINITION. The reference function `parse` that FPCV's result is held to (40_aligner_checksum.md R120), the frame's
layout (30_encoding.md R70), and the read values the contract gives for each outcome (R121). -/

namespace Sys2Proof.Machine

/-- The document's two fatal results (R12, R161). -/
inductive DecodeError where
  | tooShort
  | badStartMarker
deriving DecidableEq, Repr

/-- The frame kinds (R3, R38). -/
inductive Kind where
  | tagData
  | unknown (typeCode : Byte)
deriving DecidableEq, Repr

/-- The decode result (R12, R120). -/
structure ParsedFrame where
  head : Byte
  typeCode : Byte
  length : Byte
  data : List Byte
  checksum : Byte
  computedChecksum : Byte
  checksumValid : Bool
  kind : Kind
deriving DecidableEq, Repr

/-- The sum of some bytes modulo 256: sum first, reduce once (R117). -/
def sumMod256 (bs : List Byte) : Byte := BitVec.ofNat 8 ((bs.map BitVec.toNat).sum % 256)

/-- `raw[i]`, a byte of the buffer (R11); 0x00 past its end, where `parse` never looks. -/
def rawAt (raw : List Byte) (i : Nat) : Byte := raw.getD i 0x00

/-- `parse(raw)`, in the order of the document's steps (R120). -/
def parse (raw : List Byte) : Except DecodeError ParsedFrame :=
  if raw.length < Config.hdrLen then .error .tooShort
  else if rawAt raw 0 ≠ Config.startMarker then .error .badStartMarker
  else if raw.length < Config.hdrLen + (rawAt raw 2).toNat + 1 then .error .tooShort
  else
    let typeCode := rawAt raw 1
    let length := rawAt raw 2
    let data := (raw.drop Config.hdrLen).take length.toNat
    let checksum := rawAt raw (Config.hdrLen + length.toNat)
    let computed := sumMod256 (typeCode :: length :: data)
    .ok
      { head := rawAt raw 0
        typeCode := typeCode
        length := length
        data := data
        checksum := checksum
        computedChecksum := computed
        checksumValid := computed == checksum
        kind := if typeCode = Config.tagType then .tagData else .unknown typeCode }

/-- A ParsedFrame's bytes: head, type, length, data, checksum (R70, R122). -/
def ParsedFrame.bytes (f : ParsedFrame) : List Byte := f.head :: f.typeCode :: f.length :: (f.data ++ [f.checksum])

/-- The suffix count the host reads after a successful decode: `min(len(raw) - (4 + f.length), 255)` (R121). -/
def suffixCount (raw : List Byte) (f : ParsedFrame) : Byte :=
  BitVec.ofNat 8 (min (raw.length - (4 + f.length.toNat)) 255)

/-- The read value the contract gives at a register when a buffer has ended (R121), with BEAT_ERR in STATUS bit 4. -/
def contractValue (raw : List Byte) (beatErr : Bool) (r : HostReg) : Byte :=
  let beatErrBit : Byte := if beatErr then 0x10 else 0x00
  match parse raw, r with
  | _, .ctrl => 0x00
  | _, .reserved => 0x00
  | .error _, .status => beatErrBit ||| 0b0010
  | .error .tooShort, .errcode => 0x01
  | .error .badStartMarker, .errcode => 0x02
  | .error _, _ => 0x00
  | .ok f, .status => beatErrBit ||| (if f.checksumValid then 0b1110 else 0b0110)
  | .ok _, .errcode => 0x00
  | .ok f, .head => f.head
  | .ok f, .type => f.typeCode
  | .ok f, .length => f.length
  | .ok f, .csumRx => f.checksum
  | .ok f, .csumCalc => f.computedChecksum
  | .ok f, .kind => if f.kind = .tagData then 0x01 else 0x00
  | .ok f, .suffixCnt => suffixCount raw f
  | .ok f, .payload i => if i.toNat < f.length.toNat then rawAt f.data i.toNat else 0x00

end Sys2Proof.Machine
end

