-- ==== Sys2Proof/Safety.lean ====
section
/-! DEFINITION. The terms the statements are written in: the invariants of 10_state.md R24, the aligner's relation to the
bytes of the buffer, runs of operations, and what it is for operations to deliver a buffer (40_aligner_checksum.md R121). -/

namespace Sys2Proof.Machine

/-! ## The invariants of R24 -/

/-- R24 item 1: CNT never exceeds LENR, is below it in DATA, and equals it in CSUM and SUFFIX. -/
abbrev Regs.countsAgree (x : Regs) : Prop :=
  x.cnt.toNat ≤ x.lenr.toNat ∧ (x.phase = .data → x.cnt.toNat < x.lenr.toNat) ∧
    (x.phase = .csum ∨ x.phase = .suffix → x.cnt = x.lenr)

/-- R24 item 2, and what makes it inductive: while a buffer is in progress, HDRBAD says whether the head differs from
START_MARKER (R20). -/
abbrev Regs.headAgrees (x : Regs) : Prop :=
  (x.phase = .drain → x.hdrbad = true) ∧
    (x.phase = .data ∨ x.phase = .csum ∨ x.phase = .suffix → x.hdrbad = false) ∧
    (x.busy = true → x.hdrbad = (x.headr != Config.startMarker))

/-- R24 items 4 and 5: what a latched result looks like, and that ERRC never takes 3 (R36). While a buffer is in progress
no result is latched (R104). -/
abbrev Regs.resultAgrees (x : Regs) : Prop :=
  (x.phase = .done → x.okf = true →
      x.errc = 0 ∧ x.headr = Config.startMarker ∧ x.cnt = x.lenr ∧ x.csv = (x.acc == x.csrx)) ∧
    (x.phase = .done → x.okf = false → (x.errc = 1 ∨ x.errc = 2) ∧ x.csv = false) ∧
    (x.busy = true → x.errc = 0 ∧ x.okf = false ∧ x.csv = false) ∧ x.errc ≠ 3

/-- The invariant of the record: R24 and the canonical form of `PAY`. -/
abbrev Regs.inv (x : Regs) : Prop := x.countsAgree ∧ x.headAgrees ∧ x.resultAgrees ∧ x.pay.wf

/-- The invariant of the state: the record's, and that while reset is asserted the record holds its reset values (R180). -/
abbrev State.inv (s : State) : Prop := s.x.inv ∧ (s.rst = true → s.x = resetEdge s.x)

/-! ## The aligner and the bytes of the buffer -/

/-- The record after the bytes `raw` of a buffer have been taken and the buffer goes on: each byte is in its place in the
frame (R22, R24 item 3, R70). In DATA, CSUM and SUFFIX the payload bytes so far are `p`. -/
def Aligned (raw : List Byte) (x : Regs) : Prop :=
  match x.phase with
  | .idle => raw = []
  | .type => raw = [x.headr] ∧ x.acc = sumMod256 [] ∧ x.sfx = 0x00
  | .len => raw = [x.headr, x.typer] ∧ x.acc = sumMod256 [x.typer] ∧ x.sfx = 0x00
  | .data => ∃ p, raw = x.headr :: x.typer :: x.lenr :: p ∧ x.headr = Config.startMarker ∧
      p.length = x.cnt.toNat ∧ p.length < x.lenr.toNat ∧ x.acc = sumMod256 (x.typer :: x.lenr :: p) ∧
      (∀ i, i < p.length → x.pay.read i = rawAt p i) ∧ x.sfx = 0x00
  | .csum => ∃ p, raw = x.headr :: x.typer :: x.lenr :: p ∧ x.headr = Config.startMarker ∧
      p.length = x.lenr.toNat ∧ x.acc = sumMod256 (x.typer :: x.lenr :: p) ∧
      (∀ i, i < p.length → x.pay.read i = rawAt p i) ∧ x.sfx = 0x00
  | .suffix => ∃ p r, raw = x.headr :: x.typer :: x.lenr :: (p ++ x.csrx :: r) ∧ x.headr = Config.startMarker ∧
      p.length = x.lenr.toNat ∧ x.acc = sumMod256 (x.typer :: x.lenr :: p) ∧
      (∀ i, i < p.length → x.pay.read i = rawAt p i) ∧ x.sfx = BitVec.ofNat 8 (min r.length 255)
  | .drain => ∃ p, raw = x.headr :: x.typer :: x.lenr :: p ∧ x.headr ≠ Config.startMarker
  | .done => False

/-! ## Runs of operations -/

/-- Some operations in order, each accepted or held as its port does it, up to the first stop. -/
def runOps : List Instr → State → Host.Outcome State Fault Refusal
  | [], s => .next s
  | i :: is, s =>
    match exec i s with
    | .next t => runOps is t
    | .fault e => .fault e
    | .refused r => .refused r

end Sys2Proof.Machine

namespace Sys2Proof

/-- A read of the host port (R134 to R145). -/
def Instr.isRead : Instr → Bool
  | .rdCtrl _ | .rdStatus _ | .rdErrcode _ | .rdHead _ | .rdType _ | .rdLength _ | .rdCsumRx _ | .rdCsumCalc _
  | .rdKind _ | .rdSuffixCnt _ | .rdPayload _ _ | .rdRsvd _ _ => true
  | .push _ | .beatRsvd _ | .pushl _ | .eob _ | .wrCtrl _ | .wrIgn _ _ => false

/-- A CTRL write with CLEAR or ACK set (R34). -/
def Instr.isCtrlAction : Instr → Bool
  | .wrCtrl v => Machine.ctrlClear v || Machine.ctrlAck v
  | .push _ | .beatRsvd _ | .pushl _ | .eob _ | .wrIgn _ _ | .rdCtrl _ | .rdStatus _ | .rdErrcode _ | .rdHead _
  | .rdType _ | .rdLength _ | .rdCsumRx _ | .rdCsumCalc _ | .rdKind _ | .rdSuffixCnt _ | .rdPayload _ _
  | .rdRsvd _ _ => false

/-- A BEAT_RSVD beat. -/
def Instr.isReserved : Instr → Bool
  | .beatRsvd _ => true
  | .push _ | .pushl _ | .eob _ | .wrCtrl _ | .wrIgn _ _ | .rdCtrl _ | .rdStatus _ | .rdErrcode _ | .rdHead _
  | .rdType _ | .rdLength _ | .rdCsumRx _ | .rdCsumCalc _ | .rdKind _ | .rdSuffixCnt _ | .rdPayload _ _
  | .rdRsvd _ _ => false

end Sys2Proof

namespace Sys2Proof.Machine

/-- The bytes of the one buffer that some operations deliver and end with their last one: PUSH beats, then PUSHL or EOB,
with any number of BEAT_RSVD beats and host operations mixed in, but no CTRL write with CLEAR or ACK set (R121). None where
they deliver no such buffer. -/
def delivered : List Instr → Option (List Byte)
  | [] => none
  | [.pushl b] => some [b]
  | [.eob _] => some []
  | .push b :: is => (delivered is).map (b :: ·)
  | i :: is => if i.port = .host ∧ i.isCtrlAction = false ∨ i.isReserved = true then delivered is else none

/-- What R121 says of the state a buffer's last operation leaves: DONE, and every host register reads as the contract
gives it for `parse raw`. -/
def MeetsContract (raw : List Byte) (x : Regs) : Prop :=
  x.phase = .done ∧ ∀ a, x.readAt a = contractValue raw x.berr (hostRegAt a)

/-- The bytes a host reads back from an Ok result: HEAD, TYPE, LENGTH = L, PAYLOAD[0..L-1], CSUM_RX (R122). -/
def readBack (x : Regs) : List Byte :=
  x.readHead :: x.readType :: x.readLength ::
    ((List.range x.readLength.toNat).map (fun i => x.readPayload (BitVec.ofNat 8 i)) ++ [x.readCsumRx])

end Sys2Proof.Machine
end

