-- ==== Sys2Proof/Certificates/Slice0/Obligations.lean ====
section
/-! DEFINITION. The statements for the provers. Each docstring names the rules of spec/ it formalises. A statement about `step`
speaks of the fields `turns`, `stream`, `host` and `rdata`, which are the model's way to hold the agents' inputs and RDATA (log
entries 2 and 3). Where a rule's sentence is marked 'derived' in spec/, the docstring says so. -/

open Sys2Proof Sys2Proof.Machine

/-! ## Encoding and decoding -/

/-- Decoding the word of a well-formed operation gives it back, for every operand value (R72, R74, R75). -/
def Obligations.DecodeOfEncodeIsTheOperation : Prop :=
  ∀ i : Instr, i.wf = true → decode (encode i) = i

/-- Every one of the 2^10 beat words and 2^18 host words decodes to a well-formed operation of its port, whose word it is:
the decoder is total and loses no bit (R130; the spec derives the same of its table in R75). -/
def Obligations.EveryWordIsTheWordOfItsOperation : Prop :=
  ∀ w : PortWord, (decode w).wf = true ∧ encode (decode w) = w ∧
    (decode w).port = (match w with | .beat _ => .stream | .host _ => .host)

/-- The decoder picks the row of the opcode map that R75 picks: it matches the word, and every other row of the format that
matches has fewer 1 bits in its mask. That there is exactly one such row is marked derived in R75. -/
def Obligations.DecoderPicksTheRowWithMostMaskBits : Prop :=
  (∀ w : BeatWord, ∃ r ∈ beatRows, r.matchesWord w = true ∧ r.mnemonic = (decodeBeat w).mnemonic ∧
    ∀ q ∈ beatRows, q.matchesWord w = true → q = r ∨ q.maskBits < r.maskBits) ∧
  (∀ w : HostWord, ∃ r ∈ hostRows, r.matchesWord w = true ∧ r.mnemonic = (decodeHost w).mnemonic ∧
    ∀ q ∈ hostRows, q.matchesWord w = true → q = r ∨ q.maskBits < r.maskBits)

/-- Words written out in the spec's decode vectors decode to the operations given there (95_test_vectors.md 2.2, 2.3). -/
def Obligations.SampleWordsDecodeAsTheSpecSays : Prop :=
  decodeBeat 0x0BB = .push 0xBB ∧ decodeBeat 0x20F = .pushl 0x0F ∧ decodeBeat 0x3FF = .eob 0xFF ∧
  decodeBeat 0x155 = .beatRsvd 0x55 ∧ decodeHost 0x000FF = .rdCtrl 0xFF ∧ decodeHost 0x00900 = .rdSuffixCnt 0x00 ∧
  decodeHost 0x00A00 = .rdRsvd 0x0A 0x00 ∧ decodeHost 0x0FF00 = .rdRsvd 0xFF 0x00 ∧
  decodeHost 0x11200 = .rdPayload 18 0x00 ∧ decodeHost 0x1FF00 = .rdPayload 255 0x00 ∧
  decodeHost 0x20003 = .wrCtrl 0x03 ∧ decodeHost 0x20100 = .wrIgn 0x001 0x00 ∧ decodeHost 0x3FFAB = .wrIgn 0x1FF 0xAB

/-! ## Steps -/

/-- A turn of the transport with an offered beat and `si_ready` at 1 runs the beat's operation, off the port (R10, R100; the
turns and the queue are the model's, log entry 3). -/
def Obligations.StepRunsTheAcceptedBeat : Prop :=
  ∀ (s : State) (ts : List Turn) (w : BeatWord) (ws : List BeatWord),
    s.turns = .beat :: ts → s.stream = w :: ws → s.x.phase ≠ .done → s.rst = false →
      step s = exec (decodeBeat w) { s with turns := ts, stream := ws }

/-- A turn of the host with a one-byte access and reset not asserted runs the access's operation, off the port (R10, R130; the
turns, the queue and the access's width field are the model's, log entries 3 and 6). -/
def Obligations.StepRunsTheAcceptedTransaction : Prop :=
  ∀ (s : State) (ts : List Turn) (w : HostWord) (as : List HostAccess),
    s.turns = .host :: ts → s.host = ⟨1, w⟩ :: as → s.rst = false →
      step s = exec (decodeHost w) { s with turns := ts, host := as }

/-- A beat offered while a result waits is held: its operation changes nothing, and the transport's turn leaves it first in
the stream's order and FPCV as it is (R100, R60; that the turn is spent is the model's choice, log entry 4). In IDLE through
DRAIN a step that answers a next state took the beat off the stream. -/
def Obligations.BeatIsHeldExactlyWhileNotReady : Prop :=
  (∀ (s : State) (i : Instr), i.port = .stream → s.x.phase = .done → exec i s = .next s) ∧
  (∀ (s : State) (ts : List Turn), s.turns = .beat :: ts → s.x.phase = .done → s.rst = false →
    step s = .next { s with turns := ts }) ∧
  (∀ (s t : State) (ts : List Turn), s.turns = .beat :: ts → s.x.phase ≠ .done → s.rst = false →
    step s = .next t → t.stream = s.stream.tail)

/-- While reset is asserted neither port accepts anything: no operation changes the state, what is offered stays offered,
and at a port's turn the record takes its reset values with `PAY` kept (R180; that such a turn is a clock edge is the model's
choice, log entry 5). -/
def Obligations.NothingIsAcceptedInReset : Prop :=
  (∀ (s : State) (i : Instr), s.rst = true → exec i s = .next s) ∧
  (∀ (s : State) (p : Turn) (ts : List Turn), s.rst = true → s.turns = p :: ts → p = .beat ∨ p = .host →
    step s = .next { s with turns := ts, x := { Regs.atReset with pay := s.x.pay } })

/-- An edge with `rst` at 1 sets every element but `PAY` to its reset value in every phase and leaves what the transport
and the host offer theirs; its release changes nothing but the input's level (R180, R181; reset as two turns is the model's
choice, log entry 5). -/
def Obligations.ResetEdgeSetsTheResetValues : Prop :=
  (∀ (s : State) (ts : List Turn), s.turns = .reset true :: ts →
    step s = .next { s with turns := ts, rst := true, x := { Regs.atReset with pay := s.x.pay } }) ∧
  (∀ (s : State) (ts : List Turn), s.turns = .reset false :: ts →
    step s = .next { s with turns := ts, rst := false })

/-- After reset FPCV is in IDLE, every host offset reads 0x00, `si_ready` is 1 and `done_o` is 0, whatever `PAY` holds
(R43; the spec derives it in R182, 'After reset, FPCV is in phase IDLE, STATUS reads 0x00'; log entry 5). -/
def Obligations.EveryReadIsZeroAfterReset : Prop :=
  ∀ (s : State) (ts : List Turn), s.turns = .reset true :: .reset false :: ts →
    ∃ t u, step s = .next t ∧ step t = .next u ∧ u.x.phase = .idle ∧ u.siReady = true ∧ u.doneO = false ∧
      ∀ a, u.x.readAt a = 0x00

/-- With no turn left nothing changes. The model's choice for a state in which no agent acts (log entry 13). -/
def Obligations.NoTurnChangesNothing : Prop :=
  ∀ s : State, s.turns = [] → step s = .next s

/-- A host access whose width is not one byte is refused by name (R52; how an access carries its width is the model's choice,
log entry 6). -/
def Obligations.WideAccessIsRefused : Prop :=
  ∀ (s : State) (ts : List Turn) (n : Nat) (w : HostWord) (as : List HostAccess),
    s.turns = .host :: ts → s.host = ⟨n, w⟩ :: as → s.rst = false → n ≠ 1 →
      step s = .refused (.hostAccessWidth n)

/-! ## The beats -/

/-- PUSH in IDLE: the byte is the head and starts a buffer (R104). -/
def Obligations.PushInIdleStartsABuffer : Prop :=
  ∀ (s : State) (b : Byte), s.rst = false → s.x.phase = .idle →
    exec (.push b) s = .next { s with x := { s.x with
      headr := b, hdrbad := decide (b ≠ 0xBB#8), typer := 0, lenr := 0, cnt := 0, csrx := 0, acc := 0, sfx := 0,
      errc := 0, okf := false, csv := false, phase := .type } }

/-- PUSH in TYPE: the byte is the type code and is added to the sum, whatever HDRBAD is (R105). -/
def Obligations.PushInTypeTakesTheTypeCode : Prop :=
  ∀ (s : State) (b : Byte), s.rst = false → s.x.phase = .type →
    exec (.push b) s = .next { s with x := { s.x with
      typer := b, acc := BitVec.ofNat 8 ((s.x.acc.toNat + b.toNat) % 256), phase := .len } }

/-- PUSH in LEN: the byte is the length and decides where the buffer goes on (R106). -/
def Obligations.PushInLenTakesTheLength : Prop :=
  ∀ (s : State) (b : Byte), s.rst = false → s.x.phase = .len →
    exec (.push b) s = .next { s with x := { s.x with
      lenr := b, acc := BitVec.ofNat 8 ((s.x.acc.toNat + b.toNat) % 256), cnt := 0,
      phase := if s.x.hdrbad = true then .drain else if b = 0 then .csum else .data } }

/-- PUSH in DATA with CNT below LENR: the byte goes to `PAY[CNT]`, a cell that exists, CNT counts up without wrapping, and
the last payload byte leads to CSUM (R107; that the index is at most 254 is marked derived there). -/
def Obligations.PushInDataStoresAPayloadByte : Prop :=
  ∀ (s : State) (b : Byte), s.rst = false → s.x.phase = .data → s.x.cnt.toNat < s.x.lenr.toNat → s.x.pay.wf →
    ∃ t, exec (.push b) s = .next t ∧
      t = { s with x := { s.x with
        pay := t.x.pay, acc := BitVec.ofNat 8 ((s.x.acc.toNat + b.toNat) % 256), cnt := t.x.cnt,
        phase := if s.x.cnt.toNat + 1 = s.x.lenr.toNat then .csum else .data } } ∧
      s.x.cnt.toNat ≤ 254 ∧ t.x.cnt.toNat = s.x.cnt.toNat + 1 ∧
      t.x.pay.read s.x.cnt.toNat = b ∧ ∀ j, j ≠ s.x.cnt.toNat → t.x.pay.read j = s.x.pay.read j

/-- PUSH in CSUM takes the received checksum and does not add it (R108). -/
def Obligations.PushInCsumTakesTheChecksum : Prop :=
  ∀ (s : State) (b : Byte), s.rst = false → s.x.phase = .csum →
    exec (.push b) s = .next { s with x := { s.x with csrx := b, phase := .suffix } }

/-- PUSH in SUFFIX counts the byte at saturation 255 and keeps nothing of it (R109). PUSH in DRAIN drops the byte (R110). -/
def Obligations.PushInSuffixCountsAndInDrainDrops : Prop :=
  (∀ (s : State) (b : Byte), s.rst = false → s.x.phase = .suffix →
    exec (.push b) s = .next { s with x := { s.x with sfx := BitVec.ofNat 8 (min (s.x.sfx.toNat + 1) 255) } }) ∧
  (∀ (s : State) (b : Byte), s.rst = false → s.x.phase = .drain → exec (.push b) s = .next s)

/-- EOB decides the result from the phase: TooShort in IDLE, TYPE, LEN, DATA and CSUM, BadStartMarker in DRAIN, success in
SUFFIX with the checksums compared (R102, R103, R115). Nothing else changes. -/
def Obligations.EobLatchesTheResultOfThePhase : Prop :=
  ∀ (s : State) (d : Byte), s.rst = false → s.x.phase ≠ .done →
    exec (.eob d) s = .next { s with x := { s.x with
      phase := .done
      errc := if s.x.phase = .suffix then 0 else if s.x.phase = .drain then 2 else 1
      okf := decide (s.x.phase = .suffix)
      csv := decide (s.x.phase = .suffix ∧ s.x.acc = s.x.csrx) } }

/-- PUSHL takes its byte and then ends the buffer, in one operation: the result is decided from the phase the byte leads to
(R114, R102, C8). -/
def Obligations.PushlLatchesTheResultAfterItsByte : Prop :=
  ∀ (s : State) (b : Byte), s.rst = false → s.x.phase ≠ .done → (s.x.phase = .data → s.x.cnt.toNat < 255) →
    ∃ t, exec (.pushl b) s = .next t ∧ t.x.phase = .done ∧
      match s.x.phase with
      | .idle => t.x.errc = 1 ∧ t.x.okf = false ∧ t.x.csv = false ∧ t.x.headr = b
      | .type => t.x.errc = 1 ∧ t.x.okf = false ∧ t.x.csv = false ∧ t.x.typer = b
      | .len => t.x.errc = (if s.x.hdrbad = true then 2 else 1) ∧ t.x.okf = false ∧ t.x.csv = false ∧ t.x.lenr = b
      | .data => t.x.errc = 1 ∧ t.x.okf = false ∧ t.x.csv = false
      | .csum => t.x.errc = 0 ∧ t.x.okf = true ∧ t.x.csv = (s.x.acc == b) ∧ t.x.csrx = b ∧ t.x.sfx = s.x.sfx
      | .suffix => t.x.errc = 0 ∧ t.x.okf = true ∧ t.x.csv = (s.x.acc == s.x.csrx) ∧
          t.x.sfx.toNat = min (s.x.sfx.toNat + 1) 255
      | .drain => t.x.errc = 2 ∧ t.x.okf = false ∧ t.x.csv = false
      | .done => True

/-- A PUSHL is exactly a PUSH followed by an EOB (marked derived in R114, 'A PUSHL is exactly a PUSH followed by an EOB'). -/
def Obligations.PushlIsPushThenEob : Prop :=
  ∀ (s t : State) (b d : Byte), s.rst = false → s.x.phase ≠ .done → exec (.push b) s = .next t →
    exec (.pushl b) s = exec (.eob d) t

/-- A PUSH never latches a result and never leaves FPCV idle: after an accepted one STATUS.BUSY is 1 (marked derived in
R113, 'no arm leaves the phase IDLE or DONE'). -/
def Obligations.PushLeavesABufferInProgress : Prop :=
  ∀ (s t : State) (b : Byte), s.rst = false → s.x.phase ≠ .done → exec (.push b) s = .next t →
    t.x.readStatus.getLsbD 0 = true ∧ t.x.readStatus.getLsbD 1 = false ∧ t.x.berr = s.x.berr

/-- BEAT_RSVD sets BERR and has no other effect in any phase but DONE, where it is held; ACK does not clear BERR (R116). -/
def Obligations.ReservedBeatOnlySetsBeatErr : Prop :=
  (∀ (s : State) (d : Byte), s.rst = false → s.x.phase ≠ .done →
    exec (.beatRsvd d) s = .next { s with x := { s.x with berr := true } }) ∧
  (∀ (s : State) (d : Byte), s.x.phase = .done → exec (.beatRsvd d) s = .next s) ∧
  (∀ (s t : State) (v : Byte), v.getLsbD 0 = false → exec (.wrCtrl v) s = .next t → t.x.berr = s.x.berr)

/-- The frame of PUSH and PUSHL. Nothing outside the record changes; BERR is kept; each register changes only in the phase
whose arm writes it, ERRC, OKF and CSV of a PUSH only in IDLE; and every cell of `PAY` but `PAY[CNT]` in phase DATA reads as
before (R104 to R110, R112). -/
def Obligations.ByteBeatFrame : Prop :=
  ∀ (s t : State) (b : Byte) (i : Instr), i = .push b ∨ i = .pushl b → s.x.pay.wf → exec i s = .next t →
    t = { s with x := t.x } ∧ t.x.berr = s.x.berr ∧
    (s.x.phase ≠ .idle → t.x.headr = s.x.headr ∧ t.x.hdrbad = s.x.hdrbad) ∧
    (s.x.phase ≠ .idle ∧ s.x.phase ≠ .type → t.x.typer = s.x.typer) ∧
    (s.x.phase ≠ .idle ∧ s.x.phase ≠ .len → t.x.lenr = s.x.lenr) ∧
    (s.x.phase ≠ .idle ∧ s.x.phase ≠ .len ∧ s.x.phase ≠ .data → t.x.cnt = s.x.cnt) ∧
    (s.x.phase ≠ .idle ∧ s.x.phase ≠ .csum → t.x.csrx = s.x.csrx) ∧
    (s.x.phase ≠ .idle ∧ s.x.phase ≠ .type ∧ s.x.phase ≠ .len ∧ s.x.phase ≠ .data → t.x.acc = s.x.acc) ∧
    (s.x.phase ≠ .idle ∧ s.x.phase ≠ .suffix → t.x.sfx = s.x.sfx) ∧
    (s.x.phase ≠ .idle ∧ i = .push b → t.x.errc = s.x.errc ∧ t.x.okf = s.x.okf ∧ t.x.csv = s.x.csv) ∧
    (s.x.phase ≠ .data → ∀ a, t.x.pay.read a = s.x.pay.read a) ∧
    (s.x.phase = .data → s.rst = false → ∀ a, a ≠ s.x.cnt.toNat → t.x.pay.read a = s.x.pay.read a)

/-! ## The host's writes -/

/-- WR_CTRL: CLEAR sets every register but `PAY` to its reset value and wins over ACK, ACK releases a result in DONE and does
nothing elsewhere, and bits 7:2 are ignored (R132, R34). That CLEAR in IDLE resets the hidden registers too is read from R132's
pseudocode, where its corner case says 'CLEAR in IDLE clears BEAT_ERR only': the model's reading, DEDUCED (log entry 21). -/
def Obligations.WrCtrlClearsOrReleases : Prop :=
  ∀ (s : State) (v : Byte), s.rst = false →
    exec (.wrCtrl v) s = .next { s with x := (
      if v.getLsbD 0 = true then
        { phase := .idle, hdrbad := false, headr := 0, typer := 0, lenr := 0, cnt := 0, csrx := 0, acc := 0, sfx := 0,
          errc := 0, okf := false, csv := false, berr := false, pay := s.x.pay }
      else if v.getLsbD 1 = true ∧ s.x.phase = .done then { s.x with phase := .idle }
      else s.x) }

/-- CLEAR and ACK are idempotent: two writes of one value leave the state one leaves (R57). -/
def Obligations.CtrlWritesAreIdempotent : Prop :=
  ∀ (s t : State) (v : Byte), exec (.wrCtrl v) s = .next t → exec (.wrCtrl v) t = .next t

/-- The record after a CLEAR is the record after a reset edge (marked derived in R186, 'The state after a CLEAR equals the state
after `rst`'; log entry 5). -/
def Obligations.ClearIsASoftReset : Prop :=
  ∀ (s t u : State) (v : Byte) (ts : List Turn), s.rst = false → v.getLsbD 0 = true →
    exec (.wrCtrl v) s = .next t → step { s with turns := .reset true :: ts } = .next u → t.x = u.x

/-- After CLEAR, or ACK in DONE, the old result can no longer be read: every offset but STATUS reads 0x00, STATUS reads 0x00
or, where ACK kept BEAT_ERR, 0x10; `done_o` is 0 and the stream is ready (R132; marked derived in R194). -/
def Obligations.ReleaseMakesTheResultUnreadable : Prop :=
  ∀ (s t : State) (v : Byte), s.rst = false → v.getLsbD 0 = true ∨ v.getLsbD 1 = true ∧ s.x.phase = .done →
    exec (.wrCtrl v) s = .next t →
      (∀ a, a ≠ 0x001#9 → t.x.readAt a = 0x00) ∧
      t.x.readAt 0x001#9 = (if v.getLsbD 0 = false ∧ s.x.berr = true then 0x10 else 0x00) ∧
      t.doneO = false ∧ t.siReady = true

/-- A write to any offset but CTRL changes nothing, for every such host word (R133). -/
def Obligations.WritesOutsideCtrlAreIgnored : Prop :=
  (∀ (s : State) (a : Offset) (v : Byte), exec (.wrIgn a v) s = .next s) ∧
  (∀ (s : State) (w : HostWord), hostWE w = true → hostAddr w ≠ 0x000#9 → exec (decodeHost w) s = .next s)

/-! ## The host's reads -/

/-- Every host word with WE = 0 returns the read value of the register at its offset and changes nothing else (R30, R130). -/
def Obligations.EveryReadReturnsItsRegister : Prop :=
  ∀ (s : State) (w : HostWord), s.rst = false → hostWE w = false →
    exec (decodeHost w) s = .next { s with rdata := s.x.readAt (hostAddr w) :: s.rdata }

/-- RD_HEAD, RD_TYPE, RD_LENGTH, RD_CSUM_RX, RD_CSUM_CALC and RD_SUFFIX_CNT return their register while a successfully
decoded frame is latched and 0x00 otherwise (R37, R39). -/
def Obligations.FrameFieldReadsAreMasked : Prop :=
  ∀ (s : State) (d : Byte), s.rst = false →
    let seen (v : Byte) : Byte := if s.x.phase = .done ∧ s.x.okf = true then v else 0x00
    exec (.rdHead d) s = .next { s with rdata := seen s.x.headr :: s.rdata } ∧
    exec (.rdType d) s = .next { s with rdata := seen s.x.typer :: s.rdata } ∧
    exec (.rdLength d) s = .next { s with rdata := seen s.x.lenr :: s.rdata } ∧
    exec (.rdCsumRx d) s = .next { s with rdata := seen s.x.csrx :: s.rdata } ∧
    exec (.rdCsumCalc d) s = .next { s with rdata := seen s.x.acc :: s.rdata } ∧
    exec (.rdSuffixCnt d) s = .next { s with rdata := seen s.x.sfx :: s.rdata }

/-- RD_STATUS returns the five STATUS bits, bit by bit, with bits 7:5 zero (R35). -/
def Obligations.RdStatusReturnsTheStatusBits : Prop :=
  ∀ (s : State) (d : Byte), s.rst = false →
    ∃ v : Byte, exec (.rdStatus d) s = .next { s with rdata := v :: s.rdata } ∧
      v.getLsbD 0 = decide (s.x.phase ≠ .idle ∧ s.x.phase ≠ .done) ∧
      v.getLsbD 1 = decide (s.x.phase = .done) ∧
      v.getLsbD 2 = decide (s.x.phase = .done ∧ s.x.okf = true) ∧
      v.getLsbD 3 = decide (s.x.phase = .done ∧ s.x.okf = true ∧ s.x.csv = true) ∧
      v.getLsbD 4 = s.x.berr ∧ v.getLsbD 5 = false ∧ v.getLsbD 6 = false ∧ v.getLsbD 7 = false

/-- RD_ERRCODE returns ERRC in DONE and 0x00 elsewhere (R36); RD_KIND returns 0x01 for a visible TagData frame and 0x00
otherwise (R38). -/
def Obligations.RdErrcodeAndRdKindValues : Prop :=
  ∀ (s : State) (d : Byte), s.rst = false →
    (∃ v : Byte, exec (.rdErrcode d) s = .next { s with rdata := v :: s.rdata } ∧
      v.toNat = if s.x.phase = .done then s.x.errc.toNat else 0) ∧
    exec (.rdKind d) s = .next { s with rdata :=
      (if s.x.phase = .done ∧ s.x.okf = true ∧ s.x.typer = 0x17#8 then 0x01#8 else 0x00#8) :: s.rdata }

/-- RD_PAYLOAD[i] returns `PAY[i]` while a frame is visible and `i` is below LENGTH, and 0x00 otherwise; index 255 always
reads 0x00 (R41, R144). -/
def Obligations.RdPayloadReturnsThePayloadByte : Prop :=
  (∀ (s : State) (i d : Byte), s.rst = false →
    exec (.rdPayload i d) s = .next { s with rdata :=
      (if s.x.phase = .done ∧ s.x.okf = true ∧ i.toNat < s.x.lenr.toNat then s.x.pay.read i.toNat else 0x00#8)
        :: s.rdata }) ∧
  (∀ (s : State) (d : Byte), s.rst = false → exec (.rdPayload 255 d) s = .next { s with rdata := 0x00 :: s.rdata })

/-- Every host word with an offset in 0x00A to 0x0FF: a read returns 0x00 in every state, a write has no effect, and neither
raises an error (R40). RD_CTRL and RD_RSVD return 0x00 in every state (R34, R134, R145). -/
def Obligations.ReservedOffsetsAndCtrlReadZero : Prop :=
  (∀ (s : State) (w : HostWord), s.rst = false → 0x00A#9 ≤ hostAddr w → hostAddr w ≤ 0x0FF#9 →
    exec (decodeHost w) s = .next (if hostWE w = true then s else { s with rdata := 0x00 :: s.rdata })) ∧
  (∀ (s : State) (a d : Byte), s.rst = false →
    exec (.rdCtrl d) s = .next { s with rdata := 0x00 :: s.rdata } ∧
    exec (.rdRsvd a d) s = .next { s with rdata := 0x00 :: s.rdata })

/-- Any sequence of reads changes no state of FPCV; the host gets one byte for each read while the port is ready
(marked derived in R146, 'Apply any sequence of RD operations to a state and the state is unchanged'; RDATA's list is the
model's, log entry 2). -/
def Obligations.ReadsHaveNoEffect : Prop :=
  ∀ (is : List Instr) (s : State), (∀ i ∈ is, i.isRead = true) →
    ∃ vs, runOps is s = .next { s with rdata := vs ++ s.rdata } ∧ vs.length = (if s.rst = true then 0 else is.length)

/-- In every state that meets the invariant, STATUS reads one of five values, each also with bit 4 set when BEAT_ERR is 1,
and HEAD reads 0xBB when a frame is visible (the list of values is marked derived in R135; R137; the invariant's own conjuncts are
log entry 23). -/
def Obligations.StatusReadsOneOfFiveValues : Prop :=
  ∀ x : Regs, x.inv →
    (∃ v ∈ [0x00#8, 0x01#8, 0x02#8, 0x06#8, 0x0E#8], x.readStatus = v ||| (if x.berr = true then 0x10#8 else 0x00#8)) ∧
    x.readHead = (if x.readStatus.getLsbD 2 = true then 0xBB#8 else 0x00#8)

/-- No partial frame: unless a successfully decoded frame is latched, every offset but STATUS and ERRCODE reads 0x00, and
outside DONE ERRCODE does too (R161, R190, R24 item 6). -/
def Obligations.NothingIsReadableWithoutADecodedFrame : Prop :=
  ∀ (x : Regs) (a : Offset), x.phase = .done ∧ x.okf = true ∨
    (a ≠ 0x001#9 → a ≠ 0x002#9 → x.readAt a = 0x00) ∧ (x.phase ≠ .done → x.readAt 0x002#9 = 0x00)

/-! ## Rules of the whole machine -/

/-- The invariant of R24 holds right after reset (the spec derives R24; its further conjuncts are log entry 23, and `PAY` in
State.reset is log entry 1). -/
def Obligations.ResetMeetsTheInvariant : Prop := State.reset.inv

/-- Every step keeps the invariant of R24, from every state that meets it (the spec derives R24, 'Every reachable state satisfies
these'; the further conjuncts that make it inductive are log entry 23). -/
def Obligations.EveryStepKeepsTheInvariant : Prop :=
  ∀ s t : State, s.inv → step s = .next t → t.inv

/-- From a state that meets the invariant no step faults, and a step is refused only for a host access that is not one byte
wide (R160, R52; log entries 6 and 7). -/
def Obligations.NoStepTraps : Prop :=
  ∀ s : State, s.inv →
    (∀ e, step s ≠ .fault e) ∧ (∀ r, step s = .refused r → ∃ n, n ≠ 1 ∧ r = .hostAccessWidth n)

/-- No host operation changes the record, but for a CTRL write with CLEAR, or with ACK in DONE, and after such a write the
phase is IDLE (R21, R57, R131). -/
def Obligations.OnlyCtrlWritesHaveAnEffect : Prop :=
  ∀ (s t : State) (i : Instr), i.port = .host → exec i s = .next t → t.x ≠ s.x →
    ∃ v, i = .wrCtrl v ∧ (v.getLsbD 0 = true ∨ v.getLsbD 1 = true ∧ s.x.phase = .done) ∧ t.x.phase = .idle

/-- A latched result stays as it is until the host writes CTRL with CLEAR or ACK or reset comes: no beat, read or other write
changes the record in DONE (R62, R166, R167). -/
def Obligations.LatchedResultStaysUntilReleased : Prop :=
  ∀ s t : State, s.x.phase = .done → s.rst = false → step s = .next t → t.x ≠ s.x →
    (∃ ts, s.turns = .reset true :: ts) ∨
    (∃ ts w as, s.turns = .host :: ts ∧ s.host = ⟨1, w⟩ :: as ∧ hostWE w = true ∧ hostAddr w = 0x000#9 ∧
      (w.getLsbD 0 = true ∨ w.getLsbD 1 = true))

/-- `done_o` rises only on a beat with LAST = 1, and falls only on a CTRL write with CLEAR or ACK or at a reset edge (R163). -/
def Obligations.DoneRisesAndFallsAsTheSpecSays : Prop :=
  ∀ s t : State, step s = .next t →
    (s.doneO = false → t.doneO = true →
      ∃ ts w ws, s.turns = .beat :: ts ∧ s.stream = w :: ws ∧ beatLast w = true) ∧
    (s.doneO = true → t.doneO = false →
      s.rst = true ∨ (∃ ts, s.turns = .reset true :: ts) ∨
      ∃ ts w as, s.turns = .host :: ts ∧ s.host = ⟨1, w⟩ :: as ∧ hostWE w = true ∧ hostAddr w = 0x000#9 ∧
        (w.getLsbD 0 = true ∨ w.getLsbD 1 = true))

/-- An accepted beat with LAST = 1 makes `done_o` 1, whatever the outcome (R163, R114, R115). -/
def Obligations.EveryLastBeatLatchesAResult : Prop :=
  ∀ (s : State) (w : BeatWord), s.inv → s.rst = false → s.x.phase ≠ .done → beatLast w = true →
    ∃ t, exec (decodeBeat w) s = .next t ∧ t.doneO = true ∧ t.siReady = false

/-- `PAY` changes only in phase DATA, by a beat that carries a byte (R50, R21). -/
def Obligations.PayloadIsWrittenOnlyByBytesInData : Prop :=
  ∀ s t : State, step s = .next t → t.x.pay ≠ s.x.pay →
    s.x.phase = .data ∧ ∃ ts w ws, s.turns = .beat :: ts ∧ s.stream = w :: ws ∧ beatNoByte w = false

/-- A CLEAR at the same edge as an accepted beat discards the beat's effect: in the order of R61 the two steps leave every
register but `PAY` at its reset value, so no result is latched (R61; marked derived in R165; log entry 15). -/
def Obligations.ClearAtTheSameEdgeDiscardsTheBeat : Prop :=
  ∀ (s : State) (b : BeatWord) (bs : List BeatWord) (w : HostWord) (as : List HostAccess) (ts : List Turn),
    s.inv → s.rst = false → s.x.phase ≠ .done → s.stream = b :: bs → s.host = ⟨1, w⟩ :: as →
    hostWE w = true → hostAddr w = 0x000#9 → w.getLsbD 0 = true → s.turns = edgeTurns w ++ ts →
    ∃ t, Sys2Proof.core.run 2 s = .next t ∧ t.x = { Regs.atReset with pay := t.x.pay } ∧ t.stream = bs ∧ t.host = as ∧
      t.turns = ts

/-- Reserved beats mixed into a buffer change only BERR: the run without them leaves the same state but for BERR
(marked derived in R119, 'The reserved beats mixed into a buffer change only `BERR`'). -/
def Obligations.ReservedBeatsChangeOnlyBeatErr : Prop :=
  ∀ (is : List Instr) (s t : State), (∀ i ∈ is, i.port = .stream) → runOps is s = .next t →
    ∃ u, runOps (is.filter (fun i => !i.isReserved)) s = .next u ∧
      { t with x := { t.x with berr := s.x.berr } } = u

/-! ## The checksum and the reference function -/

/-- CsumAdd is the sum modulo 256, and adding the bytes one at a time from 0x00 gives what summing first and reducing once
gives (R101; marked derived in R117). -/
def Obligations.AddingBytewiseIsTheSumMod256 : Prop :=
  (∀ acc b : Byte, (csumAdd acc b).toNat = (acc.toNat + b.toNat) % 256) ∧
  (∀ bs : List Byte, bs.foldl csumAdd 0x00 = sumMod256 bs)

/-- The order of the decode errors: fewer than 3 bytes is TooShort whatever the head; with 3 or more a wrong head is
BadStartMarker whatever the length; then a short frame is TooShort; otherwise the decode succeeds (R120, C1, C2; marked derived in
R164). -/
def Obligations.ParseDecidesInTheOrderOfTheSteps : Prop :=
  ∀ raw : List Byte,
    (raw.length < 3 → parse raw = .error .tooShort) ∧
    (3 ≤ raw.length → rawAt raw 0 ≠ 0xBB#8 → parse raw = .error .badStartMarker) ∧
    (3 ≤ raw.length → rawAt raw 0 = 0xBB#8 → raw.length < 3 + (rawAt raw 2).toNat + 1 → parse raw = .error .tooShort) ∧
    (rawAt raw 0 = 0xBB#8 → 3 + (rawAt raw 2).toNat + 1 ≤ raw.length →
      ∃ f, parse raw = .ok f ∧ f.data.length = f.length.toNat ∧ f.length = rawAt raw 2 ∧ f.head = 0xBB#8)

/-- Encoding a ParsedFrame back into bytes and parsing them yields an equal ParsedFrame (R120, R70; the document's property in
95_test_vectors.md E6 item 5). -/
def Obligations.ParseOfEncodedFrameIsTheFrame : Prop :=
  ∀ (raw : List Byte) (f : ParsedFrame), parse raw = .ok f → parse f.bytes = .ok f

/-- FRAME with its own checksum sends one buffer that parses to a valid frame of that type and payload (R80, R120). -/
def Obligations.AssembledFrameParsesValid : Prop :=
  ∀ (t : Byte) (ds : List Byte), ds.length ≤ 255 →
    ∃ is raw f, frameOps t ds (frameChecksum t ds) = some is ∧ delivered is = some raw ∧ parse raw = .ok f ∧
      f.typeCode = t ∧ f.data = ds ∧ f.checksumValid = true

/-- The aligner gives every byte its place: where the record stands as the bytes `raw` of a buffer leave it, taking one more
byte succeeds and leaves the record as `raw` with that byte leaves it (R24 item 3, R104 to R110). -/
def Obligations.AlignerPlacesEveryByte : Prop :=
  ∀ (raw : List Byte) (x : Regs) (b : Byte), x.inv → Aligned raw x →
    ∃ y, takeByte b x = .ok y ∧ Aligned (raw ++ [b]) y

/-- The contract. From IDLE, deliver the bytes of a buffer and end it, with any reserved beats and host operations mixed in
but no CLEAR or ACK: the last operation leaves DONE, and every host register reads what `parse` of the bytes gives. It is the
spec's contract R121, marked derived there ('Then the operation that ends the buffer leaves PHASE = DONE'). -/
def Obligations.DeliveredBufferMeetsTheContract : Prop :=
  ∀ (is : List Instr) (raw : List Byte) (s : State), s.inv → s.rst = false → s.x.phase = .idle →
    delivered is = some raw →
      ∃ t, runOps is s = .next t ∧ MeetsContract raw t.x ∧
        t.x.berr = (s.x.berr || is.any Instr.isReserved)

/-- The contract holds under every interleaving of the two ports: the transport's beats deliver a buffer, the host issues
one-byte accesses that are no CLEAR or ACK, and the turns of both come in any order up to the beat that ends the buffer
(R60; the contract is R121's, marked derived there; the turns are log entry 3). -/
def Obligations.ContractHoldsUnderEveryInterleaving : Prop :=
  ∀ (s : State) (ws rest : List BeatWord) (raw : List Byte), s.inv → s.rst = false → s.x.phase = .idle →
    s.stream = ws ++ rest → delivered (ws.map decodeBeat) = some raw →
    (∀ a ∈ s.host, a.bytes = 1 ∧ (decodeHost a.word).isCtrlAction = false) →
    (∀ p ∈ s.turns, p = .beat ∨ p = .host) → s.turns.getLast? = some .beat → s.turns.count .beat = ws.length →
      ∃ t, Sys2Proof.core.run s.turns.length s = .next t ∧ MeetsContract raw t.x ∧ t.stream = rest ∧ t.turns = []

/-- The round trip. After a buffer that decoded, the host reads the frame back, writes ACK, and the bytes are delivered as a new
buffer, ended either way and with host operations mixed in: every register reads as before, but SUFFIX_CNT, which reads 0x00
(marked derived in R122, 'The new result has the same read values in every register except SUFFIX_CNT'). -/
def Obligations.ReadBackFrameDecodesAgain : Prop :=
  ∀ (is js : List Instr) (raw : List Byte) (s t : State), s.inv → s.rst = false → s.x.phase = .idle →
    delivered is = some raw → runOps is s = .next t → t.x.okf = true →
    delivered js = some (readBack t.x) → (∀ j ∈ js, j.isReserved = false) →
      ∃ u, runOps (.wrCtrl 0x02 :: js) t = .next u ∧ u.x.readAt 0x009#9 = 0x00 ∧
        ∀ a, a ≠ 0x009#9 → u.x.readAt a = t.x.readAt a

/-- The power-on content of `PAY` cannot be observed: two states right after reset that differ only in `PAY` run alike, and
every read returns the same byte (marked derived in R183, 'The uninitialised `PAY` cannot be observed'; it rests on no value of
log entry 1). -/
def Obligations.PowerOnPayloadIsUnobservable : Prop :=
  ∀ (s : State) (p : Memory) (k : Nat) (t : State), p.wf → s.x.pay.wf → s.x = { Regs.atReset with pay := s.x.pay } →
    Sys2Proof.core.run k s = .next t →
      ∃ u, Sys2Proof.core.run k { s with x := { s.x with pay := p } } = .next u ∧ u.rdata = t.rdata ∧
        { u with x := { u.x with pay := t.x.pay } } = t ∧ ∀ a, u.x.readAt a = t.x.readAt a

/-! ## The platform -/

/-- Wherever the platform puts the block, the decoder hands FPCV `addr[8:0]` of the 512 addresses of the block and nothing
of any other address (R53, R58). -/
def Obligations.PlatformAddressReachesItsOffset : Prop :=
  (∀ (base : Nat) (a : Offset), offsetInBlock base (base + a.toNat) = some a) ∧
  (∀ base addr : Nat, addr < base ∨ base + 512 ≤ addr → offsetInBlock base addr = none)

/-- A processor's read of one byte at FPCV_BASE + a returns the register at offset a, wherever the base is (R53, R74; the access
as a record is the model's, log entries 6 and 8). -/
def Obligations.PlatformReadReturnsTheRegister : Prop :=
  ∀ (s : State) (a : Offset) (v : Byte) (h : HostAccess) (ts : List Turn) (as : List HostAccess), s.rst = false →
    platformAccess false (Config.fpcvBase + a.toNat) 1 v = some h → s.turns = .host :: ts → s.host = h :: as →
      step s = .next { s with turns := ts, host := as, rdata := s.x.readAt a :: s.rdata }
end

