-- ==== Sys2Proof/Laws/Decode.lean ====
section
/-! SUPPORT. The words of the two ports bit by bit, and their fields read back from them (30_encoding.md R72, R74). -/

namespace Sys2Proof

/-! ## Beat words -/

/-- The bits of a beat word: DATA, then NOBYTE, then LAST. -/
theorem beatWord_getLsbD (l n : Bool) (b : Byte) (k : Nat) :
    (beatWord l n b).getLsbD k = if k < 8 then b.getLsbD k else if k = 8 then n else if k = 9 then l else false := by
  change (BitVec.ofBool l ++ BitVec.ofBool n ++ b : BitVec (1 + 1 + 8)).getLsbD k = _
  rw [BitVec.getLsbD_append, BitVec.getLsbD_append, BitVec.getLsbD_ofBool, BitVec.getLsbD_ofBool]
  split
  · rfl
  · split
    · simp [show k = 8 by omega]
    · by_cases h : k = 9
      · simp [h]
      · simp [h, show k ≠ 8 by omega, show k - 8 - 1 ≠ 0 by omega]

@[simp] theorem beatData_beatWord (l n : Bool) (b : Byte) : beatData (beatWord l n b) = b := by
  apply BitVec.eq_of_getLsbD_eq
  intro k hk
  simp [beatData, beatWord_getLsbD, hk]

@[simp] theorem beatNoByte_beatWord (l n : Bool) (b : Byte) : beatNoByte (beatWord l n b) = n := by
  exact beatWord_getLsbD l n b 8

@[simp] theorem beatLast_beatWord (l n : Bool) (b : Byte) : beatLast (beatWord l n b) = l := by
  exact beatWord_getLsbD l n b 9

/-- A beat word is made of its fields. -/
@[simp] theorem beatWord_fields (w : BeatWord) : beatWord (beatLast w) (beatNoByte w) (beatData w) = w := by
  apply BitVec.eq_of_getLsbD_eq
  intro k hk
  rw [beatWord_getLsbD]
  split
  · simp [beatData, *]
  · split
    · simp [beatNoByte, *]
    · rw [if_pos (by omega), show k = 9 by omega]
      rfl

/-! ## Host words -/

/-- The bits of a host word: WDATA, then ADDR, then WE. -/
theorem hostWord_getLsbD (we : Bool) (a : Offset) (d : Byte) (k : Nat) :
    (hostWord we a d).getLsbD k =
      if k < 8 then d.getLsbD k else if k < 17 then a.getLsbD (k - 8) else if k = 17 then we else false := by
  change (BitVec.ofBool we ++ a ++ d : BitVec (1 + 9 + 8)).getLsbD k = _
  rw [BitVec.getLsbD_append, BitVec.getLsbD_append, BitVec.getLsbD_ofBool]
  split
  · rfl
  · by_cases h : k - 8 < 9
    · simp [h, show k < 17 by omega]
    · by_cases h' : k = 17
      · simp [h']
      · simp [h, h', show ¬ k < 17 by omega, show k - 8 - 9 ≠ 0 by omega]

@[simp] theorem hostWData_hostWord (we : Bool) (a : Offset) (d : Byte) : hostWData (hostWord we a d) = d := by
  apply BitVec.eq_of_getLsbD_eq
  intro k hk
  simp [hostWData, hostWord_getLsbD, hk]

@[simp] theorem hostAddr_hostWord (we : Bool) (a : Offset) (d : Byte) : hostAddr (hostWord we a d) = a := by
  apply BitVec.eq_of_getLsbD_eq
  intro k hk
  simp [hostAddr, hostWord_getLsbD, hk, show 8 + k < 17 by omega]

@[simp] theorem hostWE_hostWord (we : Bool) (a : Offset) (d : Byte) : hostWE (hostWord we a d) = we := by
  exact hostWord_getLsbD we a d 17

/-- A host word is made of its fields. -/
@[simp] theorem hostWord_fields (w : HostWord) : hostWord (hostWE w) (hostAddr w) (hostWData w) = w := by
  apply BitVec.eq_of_getLsbD_eq
  intro k hk
  rw [hostWord_getLsbD]
  split
  · simp [hostWData, *]
  · split
    · simp only [hostAddr, BitVec.getLsbD_extractLsb', show k - 8 < 9 by omega, decide_true, Bool.true_and]
      congr 1
      omega
    · rw [if_pos (by omega), show k = 17 by omega]
      rfl

end Sys2Proof
end

