-- ==== Sys2Proof/Laws/Memory.lean ====
section
/-! SUPPORT. The payload buffer: reads after writes, and that every operation keeps the canonical form. -/

namespace Sys2Proof.Machine

@[simp] theorem Memory.read_nil (i : Nat) : Memory.read [] i = Config.payPowerOn := rfl

theorem Memory.read_cons (j : Nat) (v : Byte) (m : Memory) (i : Nat) :
    Memory.read ((j, v) :: m) i = if i = j then v else Memory.read m i := rfl

/-- A cell no pair names reads as nothing has written it. -/
theorem Memory.read_of_not_listed (m : Memory) (i : Nat) (h : ∀ c ∈ m, c.1 ≠ i) :
    Memory.read m i = Config.payPowerOn := by
  induction m with
  | nil => rfl
  | cons c m ih =>
    rw [Memory.read_cons, if_neg (h c (by simp)).symm]
    exact ih fun d hd => h d (by simp [hd])

/-- Reading through the pair of one written cell. -/
theorem Memory.read_cell_append (i : Nat) (v : Byte) (m : Memory) (j : Nat) :
    Memory.read (Memory.cell i v ++ m) j =
      if j = i then (if v = Config.payPowerOn then Memory.read m i else v) else Memory.read m j := by
  unfold Memory.cell
  split <;> by_cases h : j = i <;> simp_all [Memory.read_cons]

theorem Memory.mem_cell {i : Nat} {v : Byte} {c : Host.Cell} :
    c ∈ Memory.cell i v ↔ c = (i, v) ∧ v ≠ Config.payPowerOn := by
  unfold Memory.cell
  split <;> simp_all

/-- What a written memory lists: the written cell, or a pair listed before. -/
theorem Memory.mem_write {m : Memory} {i : Nat} {v : Byte} {c : Host.Cell} (h : c ∈ Memory.write m i v) :
    c = (i, v) ∧ v ≠ Config.payPowerOn ∨ c ∈ m := by
  induction m with
  | nil => exact .inl (Memory.mem_cell.mp h)
  | cons d m ih =>
    obtain ⟨j, u⟩ := d
    unfold Memory.write at h
    split at h
    · rcases List.mem_append.mp h with h | h
      · exact .inl (Memory.mem_cell.mp h)
      · exact .inr h
    · split at h
      · rcases List.mem_append.mp h with h | h
        · exact .inl (Memory.mem_cell.mp h)
        · exact .inr (by simp [h])
      · rcases List.mem_cons.mp h with h | h
        · exact .inr (by simp [h])
        · rcases ih h with h | h
          · exact .inl h
          · exact .inr (by simp [h])

/-- The tail of a canonical memory is canonical. -/
theorem Memory.wf_tail {c : Host.Cell} {m : Memory} (h : Memory.wf (c :: m)) : Memory.wf m :=
  ⟨(List.pairwise_cons.mp h.1).2, fun d hd => h.2 d (by simp [hd])⟩

/-- Every pair after the head of a canonical memory has a larger index. -/
theorem Memory.wf_head_lt {c : Host.Cell} {m : Memory} (h : Memory.wf (c :: m)) : ∀ d ∈ m, c.1 < d.1 :=
  (List.pairwise_cons.mp h.1).1

/-- A write to a cell of `PAY` keeps the canonical form. -/
theorem Memory.wf_write {m : Memory} {i : Nat} (v : Byte) (h : m.wf) (hi : i < Config.payloadMax) :
    (m.write i v).wf := by
  refine ⟨?_, fun c hc => ?_⟩
  · induction m with
    | nil => unfold Memory.write Memory.cell; split <;> simp
    | cons d m ih =>
      obtain ⟨j, u⟩ := d
      have hlt := Memory.wf_head_lt h
      unfold Memory.write
      split
      · rename_i hij
        unfold Memory.cell
        split
        · exact h.1
        · refine List.pairwise_cons.mpr ⟨fun d hd => ?_, h.1⟩
          rcases List.mem_cons.mp hd with rfl | hd
          · exact hij
          · exact Nat.lt_trans hij (hlt d hd)
      · split
        · rename_i hij
          subst hij
          unfold Memory.cell
          split
          · exact (Memory.wf_tail h).1
          · exact List.pairwise_cons.mpr ⟨hlt, (Memory.wf_tail h).1⟩
        · refine List.pairwise_cons.mpr ⟨fun d hd => ?_, ih (Memory.wf_tail h)⟩
          rcases Memory.mem_write hd with ⟨rfl, -⟩ | hd
          · change j < i; omega
          · exact hlt d hd
  · rcases Memory.mem_write hc with ⟨rfl, hv⟩ | hc
    · exact ⟨hi, hv⟩
    · exact h.2 c hc

/-- A read of the written cell gives the written byte. -/
@[simp] theorem Memory.read_write_same {m : Memory} (i : Nat) (v : Byte) (h : m.wf) : (m.write i v).read i = v := by
  induction m with
  | nil => unfold Memory.write Memory.cell; split <;> simp_all [Memory.read_cons]
  | cons d m ih =>
    obtain ⟨j, u⟩ := d
    have hlt := Memory.wf_head_lt h
    unfold Memory.write
    split
    · rename_i hij
      rw [Memory.read_cell_append, if_pos rfl]
      split
      · rename_i hv
        rw [hv]
        apply Memory.read_of_not_listed
        intro c hc
        rcases List.mem_cons.mp hc with rfl | hc
        · exact (Nat.ne_of_lt hij).symm
        · exact (Nat.ne_of_lt (Nat.lt_trans hij (hlt c hc))).symm
      · rfl
    · split
      · rename_i hij
        rw [Memory.read_cell_append, if_pos rfl]
        split
        · rename_i hv
          rw [hv]
          apply Memory.read_of_not_listed
          intro c hc
          have := hlt c hc
          simp only at this
          omega
        · rfl
      · rename_i hij
        rw [Memory.read_cons, if_neg hij]
        exact ih (Memory.wf_tail h)

/-- A write leaves every other cell alone. -/
theorem Memory.read_write_other (m : Memory) (i j : Nat) (v : Byte) (h : j ≠ i) : (m.write i v).read j = m.read j := by
  induction m with
  | nil => unfold Memory.write Memory.cell; split <;> simp_all [Memory.read_cons]
  | cons d m ih =>
    obtain ⟨k, u⟩ := d
    unfold Memory.write
    split
    · rw [Memory.read_cell_append, if_neg h]
    · split
      · rename_i hik
        rw [Memory.read_cell_append, if_neg h, Memory.read_cons, if_neg (by omega)]
      · rw [Memory.read_cons, Memory.read_cons, ih]

/-- The empty memory is canonical. -/
theorem Memory.wf_nil : Memory.wf [] := ⟨List.Pairwise.nil, by simp⟩

/-- The payload buffer of the reset state is canonical. -/
theorem State.reset_pay_wf : State.reset.x.pay.wf := Memory.wf_nil

end Sys2Proof.Machine
end

