-- ==== Sys2Proof/Laws/State.lean ====
section
/-! SUPPORT. The fields of every named update of the state and of the record, each true by rfl, so that no later proof
unfolds a record update. -/

namespace Sys2Proof.Machine

/-! ### State.withRegs -/

@[simp] theorem State.withRegs_x (s : State) (x : Regs) : (s.withRegs x).x = x := rfl
@[simp] theorem State.withRegs_rst (s : State) (x : Regs) : (s.withRegs x).rst = s.rst := rfl
@[simp] theorem State.withRegs_stream (s : State) (x : Regs) : (s.withRegs x).stream = s.stream := rfl
@[simp] theorem State.withRegs_host (s : State) (x : Regs) : (s.withRegs x).host = s.host := rfl
@[simp] theorem State.withRegs_turns (s : State) (x : Regs) : (s.withRegs x).turns = s.turns := rfl
@[simp] theorem State.withRegs_rdata (s : State) (x : Regs) : (s.withRegs x).rdata = s.rdata := rfl

/-! ### State.returning -/

@[simp] theorem State.returning_x (s : State) (v : Byte) : (s.returning v).x = s.x := rfl
@[simp] theorem State.returning_rst (s : State) (v : Byte) : (s.returning v).rst = s.rst := rfl
@[simp] theorem State.returning_stream (s : State) (v : Byte) : (s.returning v).stream = s.stream := rfl
@[simp] theorem State.returning_host (s : State) (v : Byte) : (s.returning v).host = s.host := rfl
@[simp] theorem State.returning_turns (s : State) (v : Byte) : (s.returning v).turns = s.turns := rfl
@[simp] theorem State.returning_rdata (s : State) (v : Byte) : (s.returning v).rdata = v :: s.rdata := rfl

/-! ### State.passTurn -/

@[simp] theorem State.passTurn_x (s : State) : s.passTurn.x = s.x := rfl
@[simp] theorem State.passTurn_rst (s : State) : s.passTurn.rst = s.rst := rfl
@[simp] theorem State.passTurn_stream (s : State) : s.passTurn.stream = s.stream := rfl
@[simp] theorem State.passTurn_host (s : State) : s.passTurn.host = s.host := rfl
@[simp] theorem State.passTurn_turns (s : State) : s.passTurn.turns = s.turns.tail := rfl
@[simp] theorem State.passTurn_rdata (s : State) : s.passTurn.rdata = s.rdata := rfl

/-! ### State.dropBeat -/

@[simp] theorem State.dropBeat_x (s : State) : s.dropBeat.x = s.x := rfl
@[simp] theorem State.dropBeat_rst (s : State) : s.dropBeat.rst = s.rst := rfl
@[simp] theorem State.dropBeat_stream (s : State) : s.dropBeat.stream = s.stream.tail := rfl
@[simp] theorem State.dropBeat_host (s : State) : s.dropBeat.host = s.host := rfl
@[simp] theorem State.dropBeat_turns (s : State) : s.dropBeat.turns = s.turns := rfl
@[simp] theorem State.dropBeat_rdata (s : State) : s.dropBeat.rdata = s.rdata := rfl

/-! ### State.dropAccess -/

@[simp] theorem State.dropAccess_x (s : State) : s.dropAccess.x = s.x := rfl
@[simp] theorem State.dropAccess_rst (s : State) : s.dropAccess.rst = s.rst := rfl
@[simp] theorem State.dropAccess_stream (s : State) : s.dropAccess.stream = s.stream := rfl
@[simp] theorem State.dropAccess_host (s : State) : s.dropAccess.host = s.host.tail := rfl
@[simp] theorem State.dropAccess_turns (s : State) : s.dropAccess.turns = s.turns := rfl
@[simp] theorem State.dropAccess_rdata (s : State) : s.dropAccess.rdata = s.rdata := rfl

/-! ### State.withRst -/

@[simp] theorem State.withRst_x (s : State) (level : Bool) : (s.withRst level).x = s.x := rfl
@[simp] theorem State.withRst_rst (s : State) (level : Bool) : (s.withRst level).rst = level := rfl
@[simp] theorem State.withRst_stream (s : State) (level : Bool) : (s.withRst level).stream = s.stream := rfl
@[simp] theorem State.withRst_host (s : State) (level : Bool) : (s.withRst level).host = s.host := rfl
@[simp] theorem State.withRst_turns (s : State) (level : Bool) : (s.withRst level).turns = s.turns := rfl
@[simp] theorem State.withRst_rdata (s : State) (level : Bool) : (s.withRst level).rdata = s.rdata := rfl

@[simp] theorem State.withRegs_self (s : State) : s.withRegs s.x = s := rfl

/-! ### takeHead -/

@[simp] theorem takeHead_phase (b : Byte) (x : Regs) : (takeHead b x).phase = .type := rfl
@[simp] theorem takeHead_hdrbad (b : Byte) (x : Regs) : (takeHead b x).hdrbad = (b != Config.startMarker) := rfl
@[simp] theorem takeHead_headr (b : Byte) (x : Regs) : (takeHead b x).headr = b := rfl
@[simp] theorem takeHead_typer (b : Byte) (x : Regs) : (takeHead b x).typer = 0x00 := rfl
@[simp] theorem takeHead_lenr (b : Byte) (x : Regs) : (takeHead b x).lenr = 0x00 := rfl
@[simp] theorem takeHead_cnt (b : Byte) (x : Regs) : (takeHead b x).cnt = 0x00 := rfl
@[simp] theorem takeHead_csrx (b : Byte) (x : Regs) : (takeHead b x).csrx = 0x00 := rfl
@[simp] theorem takeHead_acc (b : Byte) (x : Regs) : (takeHead b x).acc = 0x00 := rfl
@[simp] theorem takeHead_sfx (b : Byte) (x : Regs) : (takeHead b x).sfx = 0x00 := rfl
@[simp] theorem takeHead_errc (b : Byte) (x : Regs) : (takeHead b x).errc = 0 := rfl
@[simp] theorem takeHead_okf (b : Byte) (x : Regs) : (takeHead b x).okf = false := rfl
@[simp] theorem takeHead_csv (b : Byte) (x : Regs) : (takeHead b x).csv = false := rfl
@[simp] theorem takeHead_berr (b : Byte) (x : Regs) : (takeHead b x).berr = x.berr := rfl
@[simp] theorem takeHead_pay (b : Byte) (x : Regs) : (takeHead b x).pay = x.pay := rfl

/-! ### takeType -/

@[simp] theorem takeType_phase (b : Byte) (x : Regs) : (takeType b x).phase = .len := rfl
@[simp] theorem takeType_hdrbad (b : Byte) (x : Regs) : (takeType b x).hdrbad = x.hdrbad := rfl
@[simp] theorem takeType_headr (b : Byte) (x : Regs) : (takeType b x).headr = x.headr := rfl
@[simp] theorem takeType_typer (b : Byte) (x : Regs) : (takeType b x).typer = b := rfl
@[simp] theorem takeType_lenr (b : Byte) (x : Regs) : (takeType b x).lenr = x.lenr := rfl
@[simp] theorem takeType_cnt (b : Byte) (x : Regs) : (takeType b x).cnt = x.cnt := rfl
@[simp] theorem takeType_csrx (b : Byte) (x : Regs) : (takeType b x).csrx = x.csrx := rfl
@[simp] theorem takeType_acc (b : Byte) (x : Regs) : (takeType b x).acc = csumAdd x.acc b := rfl
@[simp] theorem takeType_sfx (b : Byte) (x : Regs) : (takeType b x).sfx = x.sfx := rfl
@[simp] theorem takeType_errc (b : Byte) (x : Regs) : (takeType b x).errc = x.errc := rfl
@[simp] theorem takeType_okf (b : Byte) (x : Regs) : (takeType b x).okf = x.okf := rfl
@[simp] theorem takeType_csv (b : Byte) (x : Regs) : (takeType b x).csv = x.csv := rfl
@[simp] theorem takeType_berr (b : Byte) (x : Regs) : (takeType b x).berr = x.berr := rfl
@[simp] theorem takeType_pay (b : Byte) (x : Regs) : (takeType b x).pay = x.pay := rfl

/-! ### takeLength -/

@[simp] theorem takeLength_phase (b : Byte) (x : Regs) : (takeLength b x).phase = if x.hdrbad then .drain else if b = 0x00 then .csum else .data := rfl
@[simp] theorem takeLength_hdrbad (b : Byte) (x : Regs) : (takeLength b x).hdrbad = x.hdrbad := rfl
@[simp] theorem takeLength_headr (b : Byte) (x : Regs) : (takeLength b x).headr = x.headr := rfl
@[simp] theorem takeLength_typer (b : Byte) (x : Regs) : (takeLength b x).typer = x.typer := rfl
@[simp] theorem takeLength_lenr (b : Byte) (x : Regs) : (takeLength b x).lenr = b := rfl
@[simp] theorem takeLength_cnt (b : Byte) (x : Regs) : (takeLength b x).cnt = 0x00 := rfl
@[simp] theorem takeLength_csrx (b : Byte) (x : Regs) : (takeLength b x).csrx = x.csrx := rfl
@[simp] theorem takeLength_acc (b : Byte) (x : Regs) : (takeLength b x).acc = csumAdd x.acc b := rfl
@[simp] theorem takeLength_sfx (b : Byte) (x : Regs) : (takeLength b x).sfx = x.sfx := rfl
@[simp] theorem takeLength_errc (b : Byte) (x : Regs) : (takeLength b x).errc = x.errc := rfl
@[simp] theorem takeLength_okf (b : Byte) (x : Regs) : (takeLength b x).okf = x.okf := rfl
@[simp] theorem takeLength_csv (b : Byte) (x : Regs) : (takeLength b x).csv = x.csv := rfl
@[simp] theorem takeLength_berr (b : Byte) (x : Regs) : (takeLength b x).berr = x.berr := rfl
@[simp] theorem takeLength_pay (b : Byte) (x : Regs) : (takeLength b x).pay = x.pay := rfl

/-! ### takeCsum -/

@[simp] theorem takeCsum_phase (b : Byte) (x : Regs) : (takeCsum b x).phase = .suffix := rfl
@[simp] theorem takeCsum_hdrbad (b : Byte) (x : Regs) : (takeCsum b x).hdrbad = x.hdrbad := rfl
@[simp] theorem takeCsum_headr (b : Byte) (x : Regs) : (takeCsum b x).headr = x.headr := rfl
@[simp] theorem takeCsum_typer (b : Byte) (x : Regs) : (takeCsum b x).typer = x.typer := rfl
@[simp] theorem takeCsum_lenr (b : Byte) (x : Regs) : (takeCsum b x).lenr = x.lenr := rfl
@[simp] theorem takeCsum_cnt (b : Byte) (x : Regs) : (takeCsum b x).cnt = x.cnt := rfl
@[simp] theorem takeCsum_csrx (b : Byte) (x : Regs) : (takeCsum b x).csrx = b := rfl
@[simp] theorem takeCsum_acc (b : Byte) (x : Regs) : (takeCsum b x).acc = x.acc := rfl
@[simp] theorem takeCsum_sfx (b : Byte) (x : Regs) : (takeCsum b x).sfx = x.sfx := rfl
@[simp] theorem takeCsum_errc (b : Byte) (x : Regs) : (takeCsum b x).errc = x.errc := rfl
@[simp] theorem takeCsum_okf (b : Byte) (x : Regs) : (takeCsum b x).okf = x.okf := rfl
@[simp] theorem takeCsum_csv (b : Byte) (x : Regs) : (takeCsum b x).csv = x.csv := rfl
@[simp] theorem takeCsum_berr (b : Byte) (x : Regs) : (takeCsum b x).berr = x.berr := rfl
@[simp] theorem takeCsum_pay (b : Byte) (x : Regs) : (takeCsum b x).pay = x.pay := rfl

/-! ### takeSuffix -/

@[simp] theorem takeSuffix_phase (x : Regs) : (takeSuffix x).phase = x.phase := rfl
@[simp] theorem takeSuffix_hdrbad (x : Regs) : (takeSuffix x).hdrbad = x.hdrbad := rfl
@[simp] theorem takeSuffix_headr (x : Regs) : (takeSuffix x).headr = x.headr := rfl
@[simp] theorem takeSuffix_typer (x : Regs) : (takeSuffix x).typer = x.typer := rfl
@[simp] theorem takeSuffix_lenr (x : Regs) : (takeSuffix x).lenr = x.lenr := rfl
@[simp] theorem takeSuffix_cnt (x : Regs) : (takeSuffix x).cnt = x.cnt := rfl
@[simp] theorem takeSuffix_csrx (x : Regs) : (takeSuffix x).csrx = x.csrx := rfl
@[simp] theorem takeSuffix_acc (x : Regs) : (takeSuffix x).acc = x.acc := rfl
@[simp] theorem takeSuffix_sfx (x : Regs) : (takeSuffix x).sfx = if x.sfx = 0xFF then 0xFF else x.sfx + 1 := rfl
@[simp] theorem takeSuffix_errc (x : Regs) : (takeSuffix x).errc = x.errc := rfl
@[simp] theorem takeSuffix_okf (x : Regs) : (takeSuffix x).okf = x.okf := rfl
@[simp] theorem takeSuffix_csv (x : Regs) : (takeSuffix x).csv = x.csv := rfl
@[simp] theorem takeSuffix_berr (x : Regs) : (takeSuffix x).berr = x.berr := rfl
@[simp] theorem takeSuffix_pay (x : Regs) : (takeSuffix x).pay = x.pay := rfl

/-! ### raiseTooShort -/

@[simp] theorem raiseTooShort_phase (x : Regs) : (raiseTooShort x).phase = .done := rfl
@[simp] theorem raiseTooShort_hdrbad (x : Regs) : (raiseTooShort x).hdrbad = x.hdrbad := rfl
@[simp] theorem raiseTooShort_headr (x : Regs) : (raiseTooShort x).headr = x.headr := rfl
@[simp] theorem raiseTooShort_typer (x : Regs) : (raiseTooShort x).typer = x.typer := rfl
@[simp] theorem raiseTooShort_lenr (x : Regs) : (raiseTooShort x).lenr = x.lenr := rfl
@[simp] theorem raiseTooShort_cnt (x : Regs) : (raiseTooShort x).cnt = x.cnt := rfl
@[simp] theorem raiseTooShort_csrx (x : Regs) : (raiseTooShort x).csrx = x.csrx := rfl
@[simp] theorem raiseTooShort_acc (x : Regs) : (raiseTooShort x).acc = x.acc := rfl
@[simp] theorem raiseTooShort_sfx (x : Regs) : (raiseTooShort x).sfx = x.sfx := rfl
@[simp] theorem raiseTooShort_errc (x : Regs) : (raiseTooShort x).errc = 1 := rfl
@[simp] theorem raiseTooShort_okf (x : Regs) : (raiseTooShort x).okf = false := rfl
@[simp] theorem raiseTooShort_csv (x : Regs) : (raiseTooShort x).csv = false := rfl
@[simp] theorem raiseTooShort_berr (x : Regs) : (raiseTooShort x).berr = x.berr := rfl
@[simp] theorem raiseTooShort_pay (x : Regs) : (raiseTooShort x).pay = x.pay := rfl

/-! ### raiseBadStartMarker -/

@[simp] theorem raiseBadStartMarker_phase (x : Regs) : (raiseBadStartMarker x).phase = .done := rfl
@[simp] theorem raiseBadStartMarker_hdrbad (x : Regs) : (raiseBadStartMarker x).hdrbad = x.hdrbad := rfl
@[simp] theorem raiseBadStartMarker_headr (x : Regs) : (raiseBadStartMarker x).headr = x.headr := rfl
@[simp] theorem raiseBadStartMarker_typer (x : Regs) : (raiseBadStartMarker x).typer = x.typer := rfl
@[simp] theorem raiseBadStartMarker_lenr (x : Regs) : (raiseBadStartMarker x).lenr = x.lenr := rfl
@[simp] theorem raiseBadStartMarker_cnt (x : Regs) : (raiseBadStartMarker x).cnt = x.cnt := rfl
@[simp] theorem raiseBadStartMarker_csrx (x : Regs) : (raiseBadStartMarker x).csrx = x.csrx := rfl
@[simp] theorem raiseBadStartMarker_acc (x : Regs) : (raiseBadStartMarker x).acc = x.acc := rfl
@[simp] theorem raiseBadStartMarker_sfx (x : Regs) : (raiseBadStartMarker x).sfx = x.sfx := rfl
@[simp] theorem raiseBadStartMarker_errc (x : Regs) : (raiseBadStartMarker x).errc = 2 := rfl
@[simp] theorem raiseBadStartMarker_okf (x : Regs) : (raiseBadStartMarker x).okf = false := rfl
@[simp] theorem raiseBadStartMarker_csv (x : Regs) : (raiseBadStartMarker x).csv = false := rfl
@[simp] theorem raiseBadStartMarker_berr (x : Regs) : (raiseBadStartMarker x).berr = x.berr := rfl
@[simp] theorem raiseBadStartMarker_pay (x : Regs) : (raiseBadStartMarker x).pay = x.pay := rfl

/-! ### completeOk -/

@[simp] theorem completeOk_phase (x : Regs) : (completeOk x).phase = .done := rfl
@[simp] theorem completeOk_hdrbad (x : Regs) : (completeOk x).hdrbad = x.hdrbad := rfl
@[simp] theorem completeOk_headr (x : Regs) : (completeOk x).headr = x.headr := rfl
@[simp] theorem completeOk_typer (x : Regs) : (completeOk x).typer = x.typer := rfl
@[simp] theorem completeOk_lenr (x : Regs) : (completeOk x).lenr = x.lenr := rfl
@[simp] theorem completeOk_cnt (x : Regs) : (completeOk x).cnt = x.cnt := rfl
@[simp] theorem completeOk_csrx (x : Regs) : (completeOk x).csrx = x.csrx := rfl
@[simp] theorem completeOk_acc (x : Regs) : (completeOk x).acc = x.acc := rfl
@[simp] theorem completeOk_sfx (x : Regs) : (completeOk x).sfx = x.sfx := rfl
@[simp] theorem completeOk_errc (x : Regs) : (completeOk x).errc = 0 := rfl
@[simp] theorem completeOk_okf (x : Regs) : (completeOk x).okf = true := rfl
@[simp] theorem completeOk_csv (x : Regs) : (completeOk x).csv = (x.acc == x.csrx) := rfl
@[simp] theorem completeOk_berr (x : Regs) : (completeOk x).berr = x.berr := rfl
@[simp] theorem completeOk_pay (x : Regs) : (completeOk x).pay = x.pay := rfl

/-! ### markReserved -/

@[simp] theorem markReserved_phase (x : Regs) : (markReserved x).phase = x.phase := rfl
@[simp] theorem markReserved_hdrbad (x : Regs) : (markReserved x).hdrbad = x.hdrbad := rfl
@[simp] theorem markReserved_headr (x : Regs) : (markReserved x).headr = x.headr := rfl
@[simp] theorem markReserved_typer (x : Regs) : (markReserved x).typer = x.typer := rfl
@[simp] theorem markReserved_lenr (x : Regs) : (markReserved x).lenr = x.lenr := rfl
@[simp] theorem markReserved_cnt (x : Regs) : (markReserved x).cnt = x.cnt := rfl
@[simp] theorem markReserved_csrx (x : Regs) : (markReserved x).csrx = x.csrx := rfl
@[simp] theorem markReserved_acc (x : Regs) : (markReserved x).acc = x.acc := rfl
@[simp] theorem markReserved_sfx (x : Regs) : (markReserved x).sfx = x.sfx := rfl
@[simp] theorem markReserved_errc (x : Regs) : (markReserved x).errc = x.errc := rfl
@[simp] theorem markReserved_okf (x : Regs) : (markReserved x).okf = x.okf := rfl
@[simp] theorem markReserved_csv (x : Regs) : (markReserved x).csv = x.csv := rfl
@[simp] theorem markReserved_berr (x : Regs) : (markReserved x).berr = true := rfl
@[simp] theorem markReserved_pay (x : Regs) : (markReserved x).pay = x.pay := rfl

/-! ### clearAll -/

@[simp] theorem clearAll_phase (x : Regs) : (clearAll x).phase = .idle := rfl
@[simp] theorem clearAll_hdrbad (x : Regs) : (clearAll x).hdrbad = false := rfl
@[simp] theorem clearAll_headr (x : Regs) : (clearAll x).headr = 0x00 := rfl
@[simp] theorem clearAll_typer (x : Regs) : (clearAll x).typer = 0x00 := rfl
@[simp] theorem clearAll_lenr (x : Regs) : (clearAll x).lenr = 0x00 := rfl
@[simp] theorem clearAll_cnt (x : Regs) : (clearAll x).cnt = 0x00 := rfl
@[simp] theorem clearAll_csrx (x : Regs) : (clearAll x).csrx = 0x00 := rfl
@[simp] theorem clearAll_acc (x : Regs) : (clearAll x).acc = 0x00 := rfl
@[simp] theorem clearAll_sfx (x : Regs) : (clearAll x).sfx = 0x00 := rfl
@[simp] theorem clearAll_errc (x : Regs) : (clearAll x).errc = 0 := rfl
@[simp] theorem clearAll_okf (x : Regs) : (clearAll x).okf = false := rfl
@[simp] theorem clearAll_csv (x : Regs) : (clearAll x).csv = false := rfl
@[simp] theorem clearAll_berr (x : Regs) : (clearAll x).berr = false := rfl
@[simp] theorem clearAll_pay (x : Regs) : (clearAll x).pay = x.pay := rfl

/-! ### resetEdge -/

@[simp] theorem resetEdge_phase (x : Regs) : (resetEdge x).phase = .idle := rfl
@[simp] theorem resetEdge_hdrbad (x : Regs) : (resetEdge x).hdrbad = false := rfl
@[simp] theorem resetEdge_headr (x : Regs) : (resetEdge x).headr = 0x00 := rfl
@[simp] theorem resetEdge_typer (x : Regs) : (resetEdge x).typer = 0x00 := rfl
@[simp] theorem resetEdge_lenr (x : Regs) : (resetEdge x).lenr = 0x00 := rfl
@[simp] theorem resetEdge_cnt (x : Regs) : (resetEdge x).cnt = 0x00 := rfl
@[simp] theorem resetEdge_csrx (x : Regs) : (resetEdge x).csrx = 0x00 := rfl
@[simp] theorem resetEdge_acc (x : Regs) : (resetEdge x).acc = 0x00 := rfl
@[simp] theorem resetEdge_sfx (x : Regs) : (resetEdge x).sfx = 0x00 := rfl
@[simp] theorem resetEdge_errc (x : Regs) : (resetEdge x).errc = 0 := rfl
@[simp] theorem resetEdge_okf (x : Regs) : (resetEdge x).okf = false := rfl
@[simp] theorem resetEdge_csv (x : Regs) : (resetEdge x).csv = false := rfl
@[simp] theorem resetEdge_berr (x : Regs) : (resetEdge x).berr = false := rfl
@[simp] theorem resetEdge_pay (x : Regs) : (resetEdge x).pay = x.pay := rfl

/-! ### The record's reset values -/

@[simp] theorem resetEdge_resetEdge (x : Regs) : resetEdge (resetEdge x) = resetEdge x := rfl

@[simp] theorem clearAll_clearAll (x : Regs) : clearAll (clearAll x) = clearAll x := rfl

end Sys2Proof.Machine
end

