-- ==== Sys2Proof/Laws/Ops.lean ====
section
/-! SUPPORT. One lemma for each shared operation that says everything it can do, and the inversion of a step. -/

namespace Sys2Proof.Machine

/-! ## The checksum engine -/

/-- The adder that drops its carry is 8-bit addition. -/
theorem csumAdd_eq_add (acc b : Byte) : csumAdd acc b = acc + b := by
  apply BitVec.eq_of_toNat_eq
  simp only [csumAdd, BitVec.extractLsb'_toNat, BitVec.toNat_add, BitVec.truncate_eq_setWidth, BitVec.toNat_setWidth,
    Nat.shiftRight_zero]
  omega

/-! ## The payload buffer -/

/-- A write that succeeds names a cell and changes only `PAY`; one that does not names no cell. -/
theorem Regs.writePay_cases (x : Regs) (i v : Byte) :
    (i.toNat < 255 ∧ x.writePay i v = .ok { x with pay := x.pay.write i.toNat v }) ∨
      (i.toNat = 255 ∧ x.writePay i v = .error .noPayloadCell) := by
  have := i.isLt
  unfold Regs.writePay Config.payloadMax
  split
  · exact .inl ⟨‹_›, rfl⟩
  · exact .inr ⟨by omega, rfl⟩

/-- A write to `PAY` that succeeds keeps the canonical form. -/
theorem Regs.writePay_wf {x y : Regs} {i v : Byte} (hx : x.pay.wf) (h : x.writePay i v = .ok y) : y.pay.wf := by
  rcases x.writePay_cases i v with ⟨hi, hw⟩ | ⟨-, hw⟩
  · rw [hw] at h
    rw [← Except.ok.inj h]
    exact Memory.wf_write v hx hi
  · rw [hw] at h
    cases h

/-! ## The aligner's byte step -/

/-- What the DATA arm does: it stores, adds and counts, or it faults where CNT names no cell. -/
theorem takeData_cases (b : Byte) (x : Regs) :
    (x.cnt.toNat < 255 ∧ takeData b x = .ok { x with
        pay := x.pay.write x.cnt.toNat b, acc := csumAdd x.acc b, cnt := x.cnt + 1
        phase := if x.cnt.toNat + 1 = x.lenr.toNat then .csum else .data }) ∨
      (x.cnt.toNat = 255 ∧ takeData b x = .error .noPayloadCell) := by
  have e : (x.cnt.zeroExtend 9 + 1 = x.lenr.zeroExtend 9) ↔ (x.cnt.toNat + 1 = x.lenr.toNat) := by
    have := x.cnt.isLt
    have := x.lenr.isLt
    have one : (1 : BitVec 9).toNat = 1 := rfl
    simp only [← BitVec.toNat_inj, BitVec.truncate_eq_setWidth, BitVec.toNat_add, BitVec.toNat_setWidth, one]
    omega
  rcases x.writePay_cases x.cnt b with ⟨h, hw⟩ | ⟨h, hw⟩
  · refine .inl ⟨h, ?_⟩
    simp only [takeData, hw, Except.map, e]
  · exact .inr ⟨h, by simp only [takeData, hw, Except.map]⟩

/-- Everything `TakeByte` can do when it succeeds, one case a phase (R104 to R111). -/
theorem takeByte_cases {b : Byte} {x y : Regs} (h : takeByte b x = .ok y) :
    (x.phase = .idle ∧ y = takeHead b x) ∨ (x.phase = .type ∧ y = takeType b x) ∨
    (x.phase = .len ∧ y = takeLength b x) ∨
    (x.phase = .data ∧ x.cnt.toNat < 255 ∧ y = { x with
        pay := x.pay.write x.cnt.toNat b, acc := csumAdd x.acc b, cnt := x.cnt + 1
        phase := if x.cnt.toNat + 1 = x.lenr.toNat then .csum else .data }) ∨
    (x.phase = .csum ∧ y = takeCsum b x) ∨ (x.phase = .suffix ∧ y = takeSuffix x) ∨
    (x.phase = .drain ∧ y = x) ∨ (x.phase = .done ∧ y = x) := by
  unfold takeByte at h
  split at h <;> rename_i hp <;> simp only [hp, reduceCtorEq, false_and, true_and, false_or, or_false]
  case h_4 =>
    rcases takeData_cases b x with ⟨hc, ht⟩ | ⟨hc, ht⟩
    · rw [ht] at h
      exact ⟨hc, (Except.ok.inj h).symm⟩
    · rw [ht] at h
      cases h
  all_goals exact (Except.ok.inj h).symm

/-- `TakeByte` fails only in DATA with CNT = 255, by the one fault. -/
theorem takeByte_error {b : Byte} {x : Regs} {e : Fault} (h : takeByte b x = .error e) :
    x.phase = .data ∧ x.cnt.toNat = 255 ∧ e = .noPayloadCell := by
  unfold takeByte at h
  split at h <;> first | (cases h) | skip
  rename_i hp
  rcases takeData_cases b x with ⟨hc, ht⟩ | ⟨hc, ht⟩
  · rw [ht] at h
    cases h
  · rw [ht] at h
    exact ⟨hp, hc, (Except.error.inj h).symm⟩

/-- Where CNT names a cell, or the phase is not DATA, `TakeByte` succeeds. -/
theorem takeByte_ok (b : Byte) (x : Regs) (h : x.phase = .data → x.cnt.toNat < 255) : ∃ y, takeByte b x = .ok y := by
  cases hy : takeByte b x with
  | ok y => exact ⟨y, rfl⟩
  | error e =>
    obtain ⟨hp, hc, -⟩ := takeByte_error hy
    have := h hp
    omega

/-! ## End of buffer -/

/-- Everything `EndOfBuffer` can do (R102, R103). -/
theorem endOfBuffer_cases (x : Regs) :
    (x.phase = .suffix ∧ endOfBuffer x = completeOk x) ∨ (x.phase = .drain ∧ endOfBuffer x = raiseBadStartMarker x) ∨
    (x.phase = .done ∧ endOfBuffer x = x) ∨
    ((x.phase = .idle ∨ x.phase = .type ∨ x.phase = .len ∨ x.phase = .data ∨ x.phase = .csum) ∧
      endOfBuffer x = raiseTooShort x) := by
  unfold endOfBuffer
  cases hp : x.phase <;> simp

/-- A buffer's end always latches a result. -/
@[simp] theorem endOfBuffer_phase (x : Regs) : (endOfBuffer x).phase = .done := by
  rcases endOfBuffer_cases x with ⟨-, h⟩ | ⟨-, h⟩ | ⟨hd, h⟩ | ⟨-, h⟩ <;> rw [h]
  · rfl
  · rfl
  · exact hd
  · rfl

@[simp] theorem endOfBuffer_pay (x : Regs) : (endOfBuffer x).pay = x.pay := by
  rcases endOfBuffer_cases x with ⟨-, h⟩ | ⟨-, h⟩ | ⟨hd, h⟩ | ⟨-, h⟩ <;> rw [h] <;> rfl

@[simp] theorem endOfBuffer_berr (x : Regs) : (endOfBuffer x).berr = x.berr := by
  rcases endOfBuffer_cases x with ⟨-, h⟩ | ⟨-, h⟩ | ⟨hd, h⟩ | ⟨-, h⟩ <;> rw [h] <;> rfl

/-! ## CTRL -/

/-- Everything a CTRL write can do (R132). -/
theorem ctrlWrite_cases (v : Byte) (x : Regs) :
    (v.getLsbD 0 = true ∧ ctrlWrite v x = clearAll x) ∨
    (v.getLsbD 0 = false ∧ v.getLsbD 1 = true ∧ x.phase = .done ∧ ctrlWrite v x = { x with phase := .idle }) ∨
    (v.getLsbD 0 = false ∧ (v.getLsbD 1 = false ∨ x.phase ≠ .done) ∧ ctrlWrite v x = x) := by
  unfold ctrlWrite ctrlClear ctrlAck ackResult
  cases v.getLsbD 0 <;> cases v.getLsbD 1 <;> by_cases hp : x.phase = .done <;> simp [hp]

/-! ## Acceptance -/

/-- Everything a beat's operation can do when it answers a next state: it is accepted and its procedure runs, or it is held. -/
theorem acceptBeat_next {f : Regs → Except Fault Regs} {s t : State} (h : acceptBeat f s = .next t) :
    (s.siReady = true ∧ ∃ y, f s.x = .ok y ∧ t = s.withRegs y) ∨ (s.siReady = false ∧ t = s) := by
  unfold acceptBeat at h
  split at h
  · rename_i hr
    split at h
    · rename_i y hy
      exact .inl ⟨hr, y, hy, (Host.Outcome.next.inj h).symm⟩
    · cases h
  · rename_i hr
    exact .inr ⟨by simpa using hr, (Host.Outcome.next.inj h).symm⟩

/-- An accepted beat whose procedure succeeds. -/
theorem acceptBeat_ready {f : Regs → Except Fault Regs} {s : State} {y : Regs} (hr : s.siReady = true)
    (hf : f s.x = .ok y) : acceptBeat f s = .next (s.withRegs y) := by
  simp [acceptBeat, hr, hf]

/-- A held beat changes nothing (R100). -/
theorem acceptBeat_held {f : Regs → Except Fault Regs} {s : State} (hr : s.siReady = false) :
    acceptBeat f s = .next s := by simp [acceptBeat, hr]

/-- A read answers a next state always, and only `rdata` can grow (R146). -/
theorem acceptRead_eq (v : Regs → Byte) (s : State) :
    acceptRead v s = .next (if s.rst then s else s.returning (v s.x)) := by
  unfold acceptRead State.hrReady
  cases s.rst <;> rfl

/-- A write answers a next state always, and only the record can change. -/
theorem acceptWrite_eq (f : Regs → Regs) (s : State) :
    acceptWrite f s = .next (if s.rst then s else s.withRegs (f s.x)) := by
  unfold acceptWrite State.hrReady
  cases s.rst <;> rfl

/-- `si_ready` in terms of the phase and the reset input (R42). -/
theorem siReady_iff (s : State) : s.siReady = true ↔ s.x.phase ≠ .done ∧ s.rst = false := by
  unfold State.siReady
  cases s.x.phase <;> cases s.rst <;> decide

/-! ## The meanings, one equation an operation -/

@[simp] theorem exec_push (b : Byte) (s : State) : exec (.push b) s = acceptBeat (takeByte b) s := rfl

@[simp] theorem exec_pushl (b : Byte) (s : State) :
    exec (.pushl b) s = acceptBeat (fun x => (takeByte b x).map endOfBuffer) s := rfl

@[simp] theorem exec_eob (d : Byte) (s : State) : exec (.eob d) s = acceptBeat (fun x => .ok (endOfBuffer x)) s := rfl

@[simp] theorem exec_beatRsvd (d : Byte) (s : State) :
    exec (.beatRsvd d) s = acceptBeat (fun x => .ok (markReserved x)) s := rfl

@[simp] theorem exec_wrCtrl (v : Byte) (s : State) : exec (.wrCtrl v) s = acceptWrite (ctrlWrite v) s := rfl

@[simp] theorem exec_wrIgn (a : Offset) (d : Byte) (s : State) : exec (.wrIgn a d) s = acceptWrite ignoredWrite s := rfl

@[simp] theorem exec_rdCtrl (d : Byte) (s : State) : exec (.rdCtrl d) s = acceptRead Regs.readCtrl s := rfl

@[simp] theorem exec_rdStatus (d : Byte) (s : State) : exec (.rdStatus d) s = acceptRead Regs.readStatus s := rfl

@[simp] theorem exec_rdErrcode (d : Byte) (s : State) : exec (.rdErrcode d) s = acceptRead Regs.readErrcode s := rfl

@[simp] theorem exec_rdHead (d : Byte) (s : State) : exec (.rdHead d) s = acceptRead Regs.readHead s := rfl

@[simp] theorem exec_rdType (d : Byte) (s : State) : exec (.rdType d) s = acceptRead Regs.readType s := rfl

@[simp] theorem exec_rdLength (d : Byte) (s : State) : exec (.rdLength d) s = acceptRead Regs.readLength s := rfl

@[simp] theorem exec_rdCsumRx (d : Byte) (s : State) : exec (.rdCsumRx d) s = acceptRead Regs.readCsumRx s := rfl

@[simp] theorem exec_rdCsumCalc (d : Byte) (s : State) : exec (.rdCsumCalc d) s = acceptRead Regs.readCsumCalc s := rfl

@[simp] theorem exec_rdKind (d : Byte) (s : State) : exec (.rdKind d) s = acceptRead Regs.readKind s := rfl

@[simp] theorem exec_rdSuffixCnt (d : Byte) (s : State) :
    exec (.rdSuffixCnt d) s = acceptRead Regs.readSuffixCnt s := rfl

@[simp] theorem exec_rdPayload (i d : Byte) (s : State) :
    exec (.rdPayload i d) s = acceptRead (Regs.readPayload i) s := rfl

@[simp] theorem exec_rdRsvd (a d : Byte) (s : State) : exec (.rdRsvd a d) s = acceptRead Regs.readReserved s := rfl

/-- Everything an operation can do when it answers a next state, one case a shape: a beat is accepted, a read returns a byte,
a CTRL write acts, or the state is unchanged. -/
theorem exec_next_cases {i : Instr} {s t : State} (h : exec i s = .next t) :
    (s.siReady = true ∧ ∃ y, t = s.withRegs y ∧
      ((∃ b, i = .push b ∧ takeByte b s.x = .ok y) ∨
       (∃ b z, i = .pushl b ∧ takeByte b s.x = .ok z ∧ y = endOfBuffer z) ∨
       (∃ d, i = .eob d ∧ y = endOfBuffer s.x) ∨ (∃ d, i = .beatRsvd d ∧ y = markReserved s.x))) ∨
    (s.rst = false ∧ ∃ v, t = s.returning v ∧ i.port = .host) ∨
    (s.rst = false ∧ ∃ v, i = .wrCtrl v ∧ t = s.withRegs (ctrlWrite v s.x)) ∨ t = s := by
  cases i with
  | push b =>
    rcases acceptBeat_next h with ⟨hr, y, hy, ht⟩ | ⟨-, ht⟩
    · exact .inl ⟨hr, y, ht, .inl ⟨b, rfl, hy⟩⟩
    · exact .inr (.inr (.inr ht))
  | pushl b =>
    rw [exec_pushl] at h
    rcases acceptBeat_next h with ⟨hr, y, hy, ht⟩ | ⟨-, ht⟩
    · refine .inl ⟨hr, y, ht, .inr (.inl ?_)⟩
      cases hz : takeByte b s.x with
      | ok z =>
        simp only [hz, Except.map] at hy
        exact ⟨b, z, rfl, hz, (Except.ok.inj hy).symm⟩
      | error e =>
        simp only [hz, Except.map] at hy
        cases hy
    · exact .inr (.inr (.inr ht))
  | eob d =>
    rw [exec_eob] at h
    rcases acceptBeat_next h with ⟨hr, y, hy, ht⟩ | ⟨-, ht⟩
    · exact .inl ⟨hr, y, ht, .inr (.inr (.inl ⟨d, rfl, (Except.ok.inj hy).symm⟩))⟩
    · exact .inr (.inr (.inr ht))
  | beatRsvd d =>
    rw [exec_beatRsvd] at h
    rcases acceptBeat_next h with ⟨hr, y, hy, ht⟩ | ⟨-, ht⟩
    · exact .inl ⟨hr, y, ht, .inr (.inr (.inr ⟨d, rfl, (Except.ok.inj hy).symm⟩))⟩
    · exact .inr (.inr (.inr ht))
  | wrCtrl v =>
    rw [exec_wrCtrl, acceptWrite_eq] at h
    have ht := (Host.Outcome.next.inj h).symm
    cases hs : s.rst
    · rw [hs] at ht
      exact .inr (.inr (.inl ⟨rfl, v, rfl, ht⟩))
    · rw [hs] at ht
      exact .inr (.inr (.inr ht))
  | wrIgn a d =>
    rw [exec_wrIgn, acceptWrite_eq] at h
    refine .inr (.inr (.inr ?_))
    rw [← Host.Outcome.next.inj h]
    cases s.rst <;> rfl
  | _ =>
    simp only [exec_rdCtrl, exec_rdStatus, exec_rdErrcode, exec_rdHead, exec_rdType, exec_rdLength, exec_rdCsumRx,
      exec_rdCsumCalc, exec_rdKind, exec_rdSuffixCnt, exec_rdPayload, exec_rdRsvd, acceptRead_eq] at h
    have ht := (Host.Outcome.next.inj h).symm
    cases hs : s.rst
    · rw [hs] at ht
      exact .inr (.inl ⟨rfl, _, ht, rfl⟩)
    · rw [hs] at ht
      exact .inr (.inr (.inr ht))

/-! ## A step -/

/-- Everything a step can do when it answers a next state: nothing, an edge with no operation accepted, an accepted beat, an
accepted access, or a turn of the reset agent. -/
theorem step_next_cases {s t : State} (h : step s = .next t) :
    (s.turns = [] ∧ t = s) ∨
    (∃ p ts, s.turns = p :: ts ∧ (p = .beat ∨ p = .host) ∧ t = edgeWithoutOperation s.passTurn) ∨
    (∃ ts w ws, s.turns = .beat :: ts ∧ s.stream = w :: ws ∧ s.siReady = true ∧
      exec (decodeBeat w) s.passTurn.dropBeat = .next t) ∨
    (∃ ts w as, s.turns = .host :: ts ∧ s.host = ⟨1, w⟩ :: as ∧ s.rst = false ∧
      exec (decodeHost w) s.passTurn.dropAccess = .next t) ∨
    (∃ ts level, s.turns = .reset level :: ts ∧ t = driveReset level s.passTurn) := by
  unfold step at h
  split at h
  · rename_i ht
    exact .inl ⟨ht, (Host.Outcome.next.inj h).symm⟩
  · rename_i ts ht
    unfold offerBeat at h
    split at h
    · exact .inr (.inl ⟨_, ts, ht, .inl rfl, (Host.Outcome.next.inj h).symm⟩)
    · rename_i w ws hw
      split at h
      · rename_i hr
        exact .inr (.inr (.inl ⟨ts, w, ws, ht, hw, hr, h⟩))
      · exact .inr (.inl ⟨_, ts, ht, .inl rfl, (Host.Outcome.next.inj h).symm⟩)
  · rename_i ts ht
    unfold offerAccess at h
    split at h
    · exact .inr (.inl ⟨_, ts, ht, .inr rfl, (Host.Outcome.next.inj h).symm⟩)
    · rename_i a as ha
      split at h
      · rename_i hr
        split at h
        · rename_i hb
          obtain ⟨n, w⟩ := a
          subst hb
          refine .inr (.inr (.inr (.inl ⟨ts, w, as, ht, ha, ?_, h⟩)))
          simpa [State.hrReady] using hr
        · cases h
      · exact .inr (.inl ⟨_, ts, ht, .inr rfl, (Host.Outcome.next.inj h).symm⟩)
  · rename_i level ts ht
    exact .inr (.inr (.inr (.inr ⟨ts, level, ht, (Host.Outcome.next.inj h).symm⟩)))

end Sys2Proof.Machine
end

