-- ==== Sys2Proof/Laws/PerInstr.lean ====
section
/-! SUPPORT. The statements made for every operation, one lemma a constructor. The family RowMatch says that the word the
encoder writes matches the row of the opcode map that the operation belongs to (30_encoding.md R75). -/

namespace Sys2Proof.Laws

/-- The word matches the row of a table that has this mnemonic (R75). -/
def matchesRow {n : Nat} (rows : List (Row n)) (m : Mnemonic) (w : BitVec n) : Prop :=
  ∃ r ∈ rows, r.mnemonic = m ∧ r.matchesWord w = true

/-- Masking compares bit by bit. -/
theorem matchesWord_of_bits {n : Nat} (r : Row n) (w : BitVec n)
    (h : ∀ k, k < n → (w.getLsbD k && r.mask.getLsbD k) = r.pattern.getLsbD k) : r.matchesWord w = true := by
  unfold Row.matchesWord
  rw [beq_iff_eq]
  exact BitVec.eq_of_getLsbD_eq fun k hk => by rw [BitVec.getLsbD_and, h k hk]

/-- A beat word matches the row with its two kind bits. -/
theorem beatWord_matches (m : Mnemonic) (l n : Bool) (b : Byte) :
    Row.matchesWord ⟨m, beatWord l n 0x00, 0x300⟩ (beatWord l n b) = true := by
  refine matchesWord_of_bits _ _ fun k hk => ?_
  rw [beatWord_getLsbD, beatWord_getLsbD]
  interval_cases k <;> cases l <;> cases n <;> simp

/-- A host word matches the row of its register whatever its WDATA. -/
theorem hostWord_matches_register (m : Mnemonic) (we : Bool) (a : Offset) (d : Byte) :
    Row.matchesWord ⟨m, hostWord we a 0x00, 0x3FF00⟩ (hostWord we a d) = true := by
  refine matchesWord_of_bits _ _ fun k hk => ?_
  rw [hostWord_getLsbD, hostWord_getLsbD]
  interval_cases k <;> simp

/-- Every write matches the row of the ignored writes. -/
theorem hostWord_matches_write (m : Mnemonic) (a : Offset) (d : Byte) :
    Row.matchesWord ⟨m, 0x20000, 0x20000⟩ (hostWord true a d) = true := by
  refine matchesWord_of_bits _ _ fun k hk => ?_
  rw [hostWord_getLsbD]
  interval_cases k <;> simp

/-- A read matches the row that its ADDR[8] alone selects: the payload window or the reserved offsets. -/
theorem hostWord_matches_half (m : Mnemonic) (window : Bool) (i : Byte) (d : Byte) :
    Row.matchesWord ⟨m, hostWord false (BitVec.ofBool window ++ 0x00#8) 0x00, 0x30000⟩
      (hostWord false (BitVec.ofBool window ++ i) d) = true := by
  have bit (j : Byte) (k : Nat) : ((BitVec.ofBool window ++ j : BitVec (1 + 8)) : Offset).getLsbD k =
      if k < 8 then j.getLsbD k else BitVec.getLsbD (BitVec.ofBool window) (k - 8) := BitVec.getLsbD_append ..
  refine matchesWord_of_bits _ _ fun k hk => ?_
  rw [hostWord_getLsbD, hostWord_getLsbD, bit, bit]
  interval_cases k <;> cases window <;> simp

namespace RowMatch

/-- The encoder's word of a well-formed operation matches the operation's row. -/
def Statement (i : Instr) : Prop :=
  i.wf = true →
    match encode i with
    | .beat w => matchesRow beatRows i.mnemonic w
    | .host w => matchesRow hostRows i.mnemonic w

theorem push (b : Byte) : Statement (.push b) := fun _ => ⟨_, by decide, rfl, beatWord_matches .PUSH false false b⟩
theorem beatRsvd (d : Byte) : Statement (.beatRsvd d) :=
  fun _ => ⟨_, by decide, rfl, beatWord_matches .BEAT_RSVD false true d⟩
theorem pushl (b : Byte) : Statement (.pushl b) := fun _ => ⟨_, by decide, rfl, beatWord_matches .PUSHL true false b⟩
theorem eob (d : Byte) : Statement (.eob d) := fun _ => ⟨_, by decide, rfl, beatWord_matches .EOB true true d⟩
theorem wrCtrl (v : Byte) : Statement (.wrCtrl v) :=
  fun _ => ⟨_, by decide, rfl, hostWord_matches_register .WR_CTRL true 0x000 v⟩
theorem wrIgn (a : Offset) (d : Byte) : Statement (.wrIgn a d) :=
  fun _ => ⟨_, by decide, rfl, hostWord_matches_write .WR_IGN a d⟩
theorem rdCtrl (d : Byte) : Statement (.rdCtrl d) :=
  fun _ => ⟨_, by decide, rfl, hostWord_matches_register .RD_CTRL false 0x000 d⟩
theorem rdStatus (d : Byte) : Statement (.rdStatus d) :=
  fun _ => ⟨_, by decide, rfl, hostWord_matches_register .RD_STATUS false 0x001 d⟩
theorem rdErrcode (d : Byte) : Statement (.rdErrcode d) :=
  fun _ => ⟨_, by decide, rfl, hostWord_matches_register .RD_ERRCODE false 0x002 d⟩
theorem rdHead (d : Byte) : Statement (.rdHead d) :=
  fun _ => ⟨_, by decide, rfl, hostWord_matches_register .RD_HEAD false 0x003 d⟩
theorem rdType (d : Byte) : Statement (.rdType d) :=
  fun _ => ⟨_, by decide, rfl, hostWord_matches_register .RD_TYPE false 0x004 d⟩
theorem rdLength (d : Byte) : Statement (.rdLength d) :=
  fun _ => ⟨_, by decide, rfl, hostWord_matches_register .RD_LENGTH false 0x005 d⟩
theorem rdCsumRx (d : Byte) : Statement (.rdCsumRx d) :=
  fun _ => ⟨_, by decide, rfl, hostWord_matches_register .RD_CSUM_RX false 0x006 d⟩
theorem rdCsumCalc (d : Byte) : Statement (.rdCsumCalc d) :=
  fun _ => ⟨_, by decide, rfl, hostWord_matches_register .RD_CSUM_CALC false 0x007 d⟩
theorem rdKind (d : Byte) : Statement (.rdKind d) :=
  fun _ => ⟨_, by decide, rfl, hostWord_matches_register .RD_KIND false 0x008 d⟩
theorem rdSuffixCnt (d : Byte) : Statement (.rdSuffixCnt d) :=
  fun _ => ⟨_, by decide, rfl, hostWord_matches_register .RD_SUFFIX_CNT false 0x009 d⟩
theorem rdPayload (i d : Byte) : Statement (.rdPayload i d) :=
  fun _ => ⟨_, by decide, rfl, hostWord_matches_half .RD_PAYLOAD true i d⟩
theorem rdRsvd (a d : Byte) : Statement (.rdRsvd a d) :=
  fun _ => ⟨_, by decide, rfl, hostWord_matches_half .RD_RSVD false a d⟩

end RowMatch

end Sys2Proof.Laws
end

