-- ==== Sys2Proof/Laws/Registers.lean ====
section
/-! SUPPORT. The register map (10_state.md R30) and the read values (R34 to R41), said once for the proofs. -/

namespace Sys2Proof.Machine

/-! ## The register map -/

theorem hostRegAt_ctrl_iff (a : Offset) : hostRegAt a = .ctrl ↔ a = 0x000#9 := by revert a; decide
theorem hostRegAt_status_iff (a : Offset) : hostRegAt a = .status ↔ a = 0x001#9 := by revert a; decide
theorem hostRegAt_errcode_iff (a : Offset) : hostRegAt a = .errcode ↔ a = 0x002#9 := by revert a; decide
theorem hostRegAt_suffixCnt_iff (a : Offset) : hostRegAt a = .suffixCnt ↔ a = 0x009#9 := by revert a; decide

/-- The payload window is where ADDR[8] is 1, and its index is ADDR[7:0] (R41). -/
theorem hostRegAt_payload_iff (a : Offset) (i : Byte) :
    hostRegAt a = .payload i ↔ a.getLsbD 8 = true ∧ i = a.extractLsb' 0 8 := by
  unfold hostRegAt
  by_cases h : a.getLsbD 8 = true
  · rw [if_pos h]
    exact ⟨fun e => ⟨h, (HostReg.payload.inj e).symm⟩, fun e => by rw [e.2]⟩
  · rw [if_neg h]
    refine ⟨fun e => ?_, fun e => absurd e.1 h⟩
    split_ifs at e

/-! ## The read values -/

theorem Regs.readAt_status (x : Regs) : x.readAt 0x001#9 = x.statusValue := rfl
theorem Regs.readAt_errcode (x : Regs) : x.readAt 0x002#9 = x.readErrcode := rfl
theorem Regs.readAt_suffixCnt (x : Regs) : x.readAt 0x009#9 = x.readSuffixCnt := rfl

/-- `Visible()` in terms of the phase and OKF. -/
theorem Regs.visible_iff (x : Regs) : x.visible = true ↔ x.phase = .done ∧ x.okf = true := by
  simp [Regs.visible]

theorem Regs.masked_of_not_visible {x : Regs} (h : x.visible = false) (v : Byte) : x.masked v = 0x00 := by
  simp [Regs.masked, h]

theorem Regs.masked_of_visible {x : Regs} (h : x.visible = true) (v : Byte) : x.masked v = v := by
  simp [Regs.masked, h]

/-- With no frame latched every register but STATUS and ERRCODE reads 0x00 (R37 to R41). -/
theorem Regs.readReg_of_not_visible {x : Regs} (h : x.visible = false) (r : HostReg) (hs : r ≠ .status)
    (he : r ≠ .errcode) : x.readReg r = 0x00 := by
  cases r with
  | status => exact absurd rfl hs
  | errcode => exact absurd rfl he
  | ctrl => rfl
  | reserved => rfl
  | head => exact Regs.masked_of_not_visible h _
  | type => exact Regs.masked_of_not_visible h _
  | length => exact Regs.masked_of_not_visible h _
  | csumRx => exact Regs.masked_of_not_visible h _
  | csumCalc => exact Regs.masked_of_not_visible h _
  | suffixCnt => exact Regs.masked_of_not_visible h _
  | kind => simp [Regs.readReg, Regs.readKind, h]
  | payload i => simp [Regs.readReg, Regs.readPayload, h]

/-- The STATUS byte by its five bits. -/
theorem Regs.statusValue_eq (x : Regs) :
    x.statusValue = (if x.berr then 0x10#8 else 0#8) ||| (if x.visible && x.csv then 0x08#8 else 0#8) |||
      (if x.visible then 0x04#8 else 0#8) ||| (if x.doneO then 0x02#8 else 0#8) ||| (if x.busy then 0x01#8 else 0#8) := by
  unfold Regs.statusValue
  cases x.berr <;> cases x.visible <;> cases x.csv <;> cases x.doneO <;> cases x.busy <;> rfl

/-- The operation of a read, as the read of a register. -/
def readOp : HostReg → Byte → Byte → Instr
  | .ctrl, _, d => .rdCtrl d
  | .status, _, d => .rdStatus d
  | .errcode, _, d => .rdErrcode d
  | .head, _, d => .rdHead d
  | .type, _, d => .rdType d
  | .length, _, d => .rdLength d
  | .csumRx, _, d => .rdCsumRx d
  | .csumCalc, _, d => .rdCsumCalc d
  | .kind, _, d => .rdKind d
  | .suffixCnt, _, d => .rdSuffixCnt d
  | .reserved, a, d => .rdRsvd a d
  | .payload i, _, d => .rdPayload i d

/-- A function moves into both branches of a choice. -/
theorem ite_eq_map {α β : Type} (f : α → β) {c : Prop} [Decidable c] {x y : β} {a b : α} (hx : x = f a) (hy : y = f b) :
    (if c then x else y) = f (if c then a else b) := by
  by_cases h : c
  · rw [if_pos h, if_pos h, hx]
  · rw [if_neg h, if_neg h, hy]

/-- A read decodes to the operation of the register at its offset (R30, R75). -/
theorem decodeRead_eq_readOp (a : Offset) (d : Byte) :
    decodeRead a d = readOp (hostRegAt a) (a.extractLsb' 0 8) d := by
  unfold decodeRead hostRegAt
  iterate 11 refine ite_eq_map (readOp · (a.extractLsb' 0 8) d) rfl ?_
  rfl

/-- The operation of a register's read returns the register's read value. -/
theorem exec_readOp (r : HostReg) (a d : Byte) (s : State) :
    exec (readOp r a d) s = acceptRead (fun x => x.readReg r) s := by
  cases r <;> rfl

/-- A read returns the register at its offset (R30). -/
theorem exec_decodeRead (a : Offset) (d : Byte) (s : State) :
    exec (decodeRead a d) s = acceptRead (fun x => x.readAt a) s := by
  rw [decodeRead_eq_readOp, exec_readOp]
  rfl

end Sys2Proof.Machine
end

