-- ==== Sys2Proof/Tests/Slice0.lean ====
section
/-! SUPPORT. The model's own tests. Expected values come from spec/95_test_vectors.md (V, H, E and the decode tables of its
sections 2.1 to 2.3) and from the opcode map of 30_encoding.md R75, worked by hand. The second half holds one witness for each
statement that has hypotheses. -/

namespace Sys2Proof.Tests

open Sys2Proof.Machine

/-! ## Helpers -/

/-- The reset state with another record. -/
def withRecord (x : Regs) : State := { State.reset with x := x }

/-- After `BB 17` (V2): phase LEN. -/
def inLen : Regs := { Regs.atReset with phase := .len, headr := 0xBB, typer := 0x17, acc := 0x17 }

/-- After `BB 80 02 80` (H12): phase DATA with CNT = 1. -/
def inData : Regs :=
  { Regs.atReset with phase := .data, headr := 0xBB, typer := 0x80, lenr := 2, cnt := 1, acc := 0x02, pay := [(0, 0x80)] }

/-- After `BB FF FF` and 254 payload bytes, as V15 without its last payload byte: CNT = 254. The sum is 0xFF + 0xFF +
254 * 0xFF = 65280, and its reduction is 0x00. The cells are left unlisted: no test reads them. -/
def atLastByte : Regs :=
  { Regs.atReset with phase := .data, headr := 0xBB, typer := 0xFF, lenr := 0xFF, cnt := 254, acc := 0x00 }

/-- After `BB 17 00` (V9): phase CSUM. -/
def inCsum : Regs := { Regs.atReset with phase := .csum, headr := 0xBB, typer := 0x17, acc := 0x17 }

/-- After `BB 17 00 17` (V10): phase SUFFIX. -/
def inSuffix : Regs := { inCsum with phase := .suffix, csrx := 0x17 }

/-- After `00 17 13` (V8): phase DRAIN. -/
def inDrain : Regs :=
  { Regs.atReset with phase := .drain, hdrbad := true, headr := 0x00, typer := 0x17, lenr := 0x13, acc := 0x2A }

/-- The result of V12, `BB 80 02 80 01 03`. -/
def doneOk : Regs :=
  { Regs.atReset with
    phase := .done, headr := 0xBB, typer := 0x80, lenr := 2, cnt := 2, csrx := 0x03, acc := 0x03, okf := true, csv := true,
    pay := [(0, 0x80), (1, 0x01)] }

/-- The result of V5, the empty buffer, with BEAT_ERR set. -/
def doneShort : Regs := { Regs.atReset with phase := .done, errc := 1, berr := true }

/-- A next state that meets a test. -/
def landsOn (o : Host.Outcome State Fault Refusal) (p : State → Bool) : Bool :=
  match o with
  | .next t => p t
  | .fault _ => false
  | .refused _ => false

/-! ## Well-formedness -/

theorem test_wrIgn_at_ctrl_is_ill_formed : (Instr.wrIgn 0x000 0x55).wf = false := by decide
theorem test_wrIgn_at_first_offset_is_well_formed : (Instr.wrIgn 0x001 0x55).wf = true := by decide
theorem test_rdRsvd_below_window_is_ill_formed : (Instr.rdRsvd 0x09 0x00).wf = false := by decide
theorem test_rdRsvd_bounds_are_well_formed : (Instr.rdRsvd 0x0A 0x00).wf = true ∧ (Instr.rdRsvd 0xFF 0x00).wf = true := by
  decide

/-! ## Decoding: each word bit by bit from R72 `{LAST, NOBYTE, DATA}` or R74 `{WE, ADDR, WDATA}` -/

theorem test_decode_push : decodeBeat 0b0_0_10111011 = .push 0xBB := by decide
theorem test_decode_beatRsvd : decodeBeat 0b0_1_01010101 = .beatRsvd 0x55 := by decide
theorem test_decode_pushl : decodeBeat 0b1_0_00001111 = .pushl 0x0F := by decide
theorem test_decode_eob : decodeBeat 0b1_1_11111111 = .eob 0xFF := by decide
theorem test_decode_wrCtrl : decodeHost 0b1_000000000_00000010 = .wrCtrl 0x02 := by decide
theorem test_decode_wrIgn : decodeHost 0b1_111111111_10101011 = .wrIgn 0x1FF 0xAB := by decide
theorem test_decode_rdCtrl : decodeHost 0b0_000000000_11111111 = .rdCtrl 0xFF := by decide
theorem test_decode_rdStatus : decodeHost 0b0_000000001_00000000 = .rdStatus 0x00 := by decide
theorem test_decode_rdErrcode : decodeHost 0b0_000000010_00000000 = .rdErrcode 0x00 := by decide
theorem test_decode_rdHead : decodeHost 0b0_000000011_00000000 = .rdHead 0x00 := by decide
theorem test_decode_rdType : decodeHost 0b0_000000100_00000000 = .rdType 0x00 := by decide
theorem test_decode_rdLength : decodeHost 0b0_000000101_00000000 = .rdLength 0x00 := by decide
theorem test_decode_rdCsumRx : decodeHost 0b0_000000110_00000000 = .rdCsumRx 0x00 := by decide
theorem test_decode_rdCsumCalc : decodeHost 0b0_000000111_00000000 = .rdCsumCalc 0x00 := by decide
theorem test_decode_rdKind : decodeHost 0b0_000001000_00000000 = .rdKind 0x00 := by decide
theorem test_decode_rdSuffixCnt : decodeHost 0b0_000001001_00000000 = .rdSuffixCnt 0x00 := by decide
theorem test_decode_rdPayload : decodeHost 0b0_100010010_00000000 = .rdPayload 18 0x00 := by decide
theorem test_decode_rdRsvd : decodeHost 0b0_011111111_00000000 = .rdRsvd 0xFF 0x00 := by decide

/-- The first offset after the registers is reserved, the last offset is the payload window's (95 2.3). -/
theorem test_decode_edges :
    decodeHost 0x00A00 = .rdRsvd 0x0A 0x00 ∧ decodeHost 0x10000 = .rdPayload 0 0x00 ∧
      decodeHost 0x1FF00 = .rdPayload 255 0x00 ∧ decodeHost 0x20100 = .wrIgn 0x001 0x00 := by decide

/-- A number that no word has is refused by name. -/
theorem test_decode_refuses_wide_numbers :
    decodeNumber .stream 0x400 = .error (.wordTooWide .stream 0x400) ∧
      decodeNumber .host 0x40000 = .error (.wordTooWide .host 0x40000) := ⟨rfl, rfl⟩

/-- Table rows of 10 and of 18 bits, in whole bytes. -/
theorem test_decodeTableWord :
    decodeTableWord 16 0x20F = some (.pushl 0x0F) ∧ decodeTableWord 24 0x11200 = some (.rdPayload 18 0x00) := by decide

/-- The encoder writes the words of P1. -/
theorem test_encode_program_words :
    encode (.pushl 0x94) = .beat 0x294 ∧ encode (.rdErrcode 0x00) = .host 0x00200 ∧ encode ackOp = .host 0x20002 := by decide

/-! ## The checksum engine and the payload buffer -/

theorem test_csumAdd_wraps : csumAdd 0xFF 0x01 = 0x00 ∧ csumAdd 0xFF 0xFF = 0xFE ∧ csumAdd 0x7F 0x01 = 0x80 := by decide

theorem test_write_of_zero_lists_nothing : Memory.write [(1, 0x05)] 1 0x00 = [] := by decide

/-! ## The beats -/

/-- H12: the last payload byte 0x01 of V12. -/
theorem test_push_last_payload_byte :
    exec (.push 0x01) (withRecord inData) = .next (withRecord { inData with
      phase := .csum, cnt := 2, acc := 0x03, pay := [(0, 0x80), (1, 0x01)] }) := rfl

/-- V18: a head one off START_MARKER is taken and marked. -/
theorem test_push_bad_head :
    exec (.push 0xBC) State.reset = .next (withRecord { Regs.atReset with phase := .type, hdrbad := true, headr := 0xBC }) :=
  rfl

/-- V11: the wrong checksum 0x18 gives OK without CSUM_VALID. -/
theorem test_pushl_checksum_mismatch :
    landsOn (exec (.pushl 0x18) (withRecord inCsum)) (fun t => t.x.readStatus == 0x06 && t.x.readSuffixCnt == 0x00) = true := by
  decide

/-- V16: the byte after a length of 1 is payload, not checksum, so the buffer is too short. -/
theorem test_pushl_payload_byte_is_too_short :
    landsOn (exec (.pushl 0x05) (withRecord { inLen with phase := .data, lenr := 1, acc := 0x18 }))
      (fun t => t.x.readStatus == 0x02 && t.x.readErrcode == 0x01) = true := by decide

/-- V8: the drain phase latches BadStartMarker. -/
theorem test_eob_in_drain :
    landsOn (exec (.eob 0xFF) (withRecord inDrain)) (fun t => t.x.readStatus == 0x02 && t.x.readErrcode == 0x02) = true := by
  decide

/-- V5: the empty buffer is too short. -/
theorem test_eob_in_idle : exec (.eob 0x00) State.reset = .next (withRecord { Regs.atReset with phase := .done, errc := 1 }) :=
  rfl

/-- H9: a reserved beat in IDLE sets BEAT_ERR and starts no buffer. -/
theorem test_beatRsvd_in_idle :
    exec (.beatRsvd 0x55) State.reset = .next (withRecord { Regs.atReset with berr := true }) := rfl

/-- H10: a beat offered while a result waits is held. -/
theorem test_push_in_done_is_held : exec (.push 0xBB) (withRecord doneOk) = .next (withRecord doneOk) := rfl

/-! ## The host's operations -/

/-- H7: CLEAR wins over ACK and clears BEAT_ERR; `PAY` stays. -/
theorem test_wrCtrl_clear_and_ack :
    exec (.wrCtrl 0x03) (withRecord { doneOk with berr := true }) =
      .next (withRecord { Regs.atReset with pay := [(0, 0x80), (1, 0x01)] }) := rfl

/-- H3: ACK outside DONE is ignored. -/
theorem test_wrCtrl_ack_outside_done : exec (.wrCtrl 0x02) (withRecord inData) = .next (withRecord inData) := rfl

/-- H5: a write to a read-only register has no effect. -/
theorem test_wrIgn_status : exec (.wrIgn 0x001 0xFF) (withRecord doneOk) = .next (withRecord doneOk) := rfl

theorem test_rdCtrl : exec (.rdCtrl 0x00) (withRecord doneOk) = .next ((withRecord doneOk).returning 0x00) := rfl
theorem test_rdStatus_valid : exec (.rdStatus 0x00) (withRecord doneOk) = .next ((withRecord doneOk).returning 0x0E) := rfl
theorem test_rdStatus_busy : exec (.rdStatus 0x00) (withRecord inData) = .next ((withRecord inData).returning 0x01) := rfl
theorem test_rdErrcode : exec (.rdErrcode 0x00) (withRecord doneShort) = .next ((withRecord doneShort).returning 0x01) := rfl
theorem test_rdHead : exec (.rdHead 0x00) (withRecord doneOk) = .next ((withRecord doneOk).returning 0xBB) := rfl
theorem test_rdType : exec (.rdType 0x00) (withRecord doneOk) = .next ((withRecord doneOk).returning 0x80) := rfl
theorem test_rdType_masked : exec (.rdType 0x00) (withRecord inLen) = .next ((withRecord inLen).returning 0x00) := rfl
theorem test_rdLength : exec (.rdLength 0x00) (withRecord doneOk) = .next ((withRecord doneOk).returning 0x02) := rfl

/-- V13: the received checksum 0x01 and the computed one 0x03 each read as they are. -/
theorem test_rdCsumRx : landsOn (exec (.rdCsumRx 0x00) (withRecord { doneOk with csrx := 0x01, csv := false }))
    (fun t => t.rdata == [0x01]) = true := by decide
theorem test_rdCsumCalc : landsOn (exec (.rdCsumCalc 0x00) (withRecord { doneOk with csrx := 0x01, csv := false }))
    (fun t => t.rdata == [0x03]) = true := by decide

/-- V10 and V12: type 0x17 is TagData, type 0x80 is Unknown. -/
theorem test_rdKind_tagData : landsOn (exec (.rdKind 0x00) (withRecord { doneOk with typer := 0x17 }))
    (fun t => t.rdata == [0x01]) = true := by decide
theorem test_rdKind_unknown : exec (.rdKind 0x00) (withRecord doneOk) = .next ((withRecord doneOk).returning 0x00) := rfl

/-- V1: nine suffix bytes. -/
theorem test_rdSuffixCnt : landsOn (exec (.rdSuffixCnt 0x00) (withRecord { doneOk with sfx := 9 }))
    (fun t => t.rdata == [0x09]) = true := by decide
theorem test_rdPayload : exec (.rdPayload 1 0x00) (withRecord doneOk) = .next ((withRecord doneOk).returning 0x01) := rfl

/-- P2: with LENGTH 0 the byte that PAY still holds is masked. -/
theorem test_rdPayload_masked : landsOn (exec (.rdPayload 0 0x00) (withRecord { doneOk with lenr := 0, cnt := 0 }))
    (fun t => t.rdata == [0x00]) = true := by decide
theorem test_rdRsvd : exec (.rdRsvd 0xFF 0x00) (withRecord doneOk) = .next ((withRecord doneOk).returning 0x00) := rfl

/-! ## Steps -/

/-- A beat placed for the next step is the operation that step runs. -/
theorem test_step_runs_the_fetch_word :
    step (State.reset.withFetchWord 16 0x0BB) = exec (.push 0xBB) State.reset := rfl

/-- An access of two bytes is refused by name (R52). -/
theorem test_step_refuses_a_wide_access :
    step { State.reset with turns := [.host], host := [⟨2, 0x00100⟩] } = .refused (.hostAccessWidth 2) := rfl

/-- The notation of R79 and R80: `WR CTRL, 0x02` and `ACK` are one word, and `SEND` with no bytes is EOB. -/
theorem test_assembleLine :
    assembleLine ['W', 'R', ' ', 'C', 'T', 'R', 'L', ',', ' ', '0', 'x', '0', '2', ' ', ';', ' ', 'x'] =
      some [.word (.host 0x20002) none] ∧
    assembleLine ['A', 'C', 'K'] = some [.word (.host 0x20002) none] ∧
    assembleLine ['S', 'E', 'N', 'D'] = some [.word (.beat 0x300) none] ∧
    assembleLine ['P', 'U', 'S', 'H', ' ', '2', '5', '6'] = none := by decide

/-- P2's buffer A is FRAME 0x17, [0x01, 0x02], with checksum 0x1C. -/
theorem test_frameOps :
    frameOps 0x17 [0x01, 0x02] (frameChecksum 0x17 [0x01, 0x02]) =
      some [.push 0xBB, .push 0x17, .push 0x02, .push 0x01, .push 0x02, .pushl 0x1C] := by decide

/-- V12 by the reference function: 0x80 + 0x02 + 0x80 + 0x01 reduces to 0x03. -/
theorem test_parse_v12 :
    parse [0xBB, 0x80, 0x02, 0x80, 0x01, 0x03] = .ok
      { head := 0xBB, typeCode := 0x80, length := 2, data := [0x80, 0x01], checksum := 0x03, computedChecksum := 0x03,
        checksumValid := true, kind := .unknown 0x80 } := rfl

/-- V6 to V8: the order of the decode errors. -/
theorem test_parse_error_order :
    parse [0x00, 0x17] = .error .tooShort ∧ parse [0x00, 0x17, 0x13] = .error .badStartMarker ∧
      parse [0xBB, 0x17, 0x01, 0x05] = .error .tooShort := ⟨rfl, rfl, rfl⟩

/-! ## Witnesses: each statement's hypotheses are met, at a boundary where the statement has one -/

/-- A state with one turn of the transport and one beat. -/
def offering (x : Regs) (w : BeatWord) : State := { withRecord x with turns := [.beat], stream := [w] }

/-- A state with one turn of the host and one access. -/
def issuing (x : Regs) (w : HostWord) : State := { withRecord x with turns := [.host], host := [⟨1, w⟩] }

theorem witness_DecodeOfEncodeIsTheOperation :
    (Instr.rdRsvd 0x0A 0xFF).wf = true ∧ (Instr.rdRsvd 0xFF 0x00).wf = true ∧ (Instr.wrIgn 0x001 0x00).wf = true ∧
      (Instr.wrIgn 0x1FF 0xFF).wf = true := by decide

theorem witness_StepRunsTheAcceptedBeat : ∃ (s : State) (ts : List Turn) (w : BeatWord) (ws : List BeatWord),
    s.turns = .beat :: ts ∧ s.stream = w :: ws ∧ s.x.phase ≠ .done ∧ s.rst = false := ⟨offering inSuffix 0x2FF, [], 0x2FF, [], by decide⟩

theorem witness_StepRunsTheAcceptedTransaction : ∃ (s : State) (ts : List Turn) (w : HostWord) (as : List HostAccess),
    s.turns = .host :: ts ∧ s.host = ⟨1, w⟩ :: as ∧ s.rst = false :=
  ⟨issuing doneOk 0x20003, [], 0x20003, [], by decide⟩

theorem witness_BeatIsHeldExactlyWhileNotReady :
    (Instr.eob 0x00).port = .stream ∧ (withRecord doneOk).x.phase = .done ∧
    ((offering doneOk 0x0BB).turns = [.beat] ∧ (offering doneOk 0x0BB).rst = false) ∧
    ∃ t, (offering inDrain 0x0BB).x.phase ≠ .done ∧ step (offering inDrain 0x0BB) = .next t ∧ t.stream = [] :=
  ⟨rfl, rfl, ⟨rfl, rfl⟩, _, by decide, rfl, rfl⟩

theorem witness_NothingIsAcceptedInReset :
    ∃ s : State, s.rst = true ∧ s.turns = [.beat] ∧ ∃ u : State, u.rst = true ∧ u.turns = [.host] :=
  ⟨{ offering Regs.atReset 0x0BB with rst := true }, rfl, rfl, { issuing Regs.atReset 0x00100 with rst := true }, rfl, rfl⟩

theorem witness_ResetEdgeSetsTheResetValues : ∃ s u : State, s.turns = [.reset true] ∧ u.turns = [.reset false] :=
  ⟨{ withRecord doneOk with turns := [.reset true] }, { withRecord doneOk with turns := [.reset false], rst := true }, rfl, rfl⟩

theorem witness_EveryReadIsZeroAfterReset : ∃ s : State, s.turns = resetOperation ∧ s.x = doneOk :=
  ⟨{ withRecord doneOk with turns := resetOperation }, rfl, rfl⟩

theorem witness_NoTurnChangesNothing : (withRecord doneOk).turns = [] := rfl

theorem witness_WideAccessIsRefused : ∃ (s : State) (n : Nat) (w : HostWord), s.turns = [.host] ∧ s.host = [⟨n, w⟩] ∧
    s.rst = false ∧ n ≠ 1 ∧ n = 0 := ⟨{ State.reset with turns := [.host], host := [⟨0, 0x00100⟩] }, 0, 0x00100, by decide⟩

theorem witness_PushInIdleStartsABuffer : State.reset.rst = false ∧ State.reset.x.phase = .idle := ⟨rfl, rfl⟩

theorem witness_PushInTypeTakesTheTypeCode : ∃ s : State, s.rst = false ∧ s.x.phase = .type :=
  ⟨withRecord { Regs.atReset with phase := .type, headr := 0xBB }, rfl, rfl⟩

theorem witness_PushInLenTakesTheLength : (withRecord inLen).rst = false ∧ (withRecord inLen).x.phase = .len := ⟨rfl, rfl⟩

/-- Both ends: CNT = 1 below a length of 2, and the last cell, CNT = 254 below a length of 255. -/
theorem witness_PushInDataStoresAPayloadByte :
    (inData.phase = .data ∧ inData.cnt.toNat < inData.lenr.toNat ∧ inData.pay.wf) ∧
    (atLastByte.phase = .data ∧ atLastByte.cnt.toNat = 254 ∧ atLastByte.cnt.toNat < atLastByte.lenr.toNat ∧
      atLastByte.pay.wf) := by decide

theorem witness_PushInCsumTakesTheChecksum : (withRecord inCsum).rst = false ∧ (withRecord inCsum).x.phase = .csum := ⟨rfl, rfl⟩

theorem witness_PushInSuffixCountsAndInDrainDrops :
    (inSuffix.phase = .suffix ∧ { inSuffix with sfx := 0xFF }.phase = .suffix) ∧ inDrain.phase = .drain := by decide

theorem witness_EobLatchesTheResultOfThePhase :
    inSuffix.phase ≠ .done ∧ inDrain.phase ≠ .done ∧ Regs.atReset.phase ≠ .done ∧ (withRecord inSuffix).rst = false := by decide

/-- One state for each phase the statement gives a case of its own, CNT = 254 in DATA. -/
theorem witness_PushlLatchesTheResultAfterItsByte :
    ∀ x ∈ [Regs.atReset, { Regs.atReset with phase := .type }, inLen, { inLen with hdrbad := true }, inData, atLastByte, inCsum,
        inSuffix, inDrain],
      (withRecord x).rst = false ∧ x.phase ≠ .done ∧ (x.phase = .data → x.cnt.toNat < 255) := by decide

theorem witness_PushlIsPushThenEob : ∃ t, (withRecord inData).rst = false ∧ (withRecord inData).x.phase ≠ .done ∧
    exec (.push 0x01) (withRecord inData) = .next t := ⟨_, rfl, by decide, rfl⟩

theorem witness_PushLeavesABufferInProgress : ∃ t, State.reset.rst = false ∧ State.reset.x.phase ≠ .done ∧
    exec (.push 0x00) State.reset = .next t := ⟨_, rfl, by decide, rfl⟩

theorem witness_ReservedBeatOnlySetsBeatErr :
    ((withRecord inData).rst = false ∧ inData.phase ≠ .done) ∧ doneShort.phase = .done ∧
      ∃ t, (0x02 : Byte).getLsbD 0 = false ∧ exec (.wrCtrl 0x02) (withRecord doneShort) = .next t :=
  ⟨by decide, rfl, _, by decide, rfl⟩

theorem witness_ByteBeatFrame :
    inData.pay.wf ∧ inSuffix.pay.wf ∧ (∃ t, exec (.push 0x01) (withRecord inData) = .next t) ∧
      ∃ t, exec (.pushl 0x01) (withRecord inSuffix) = .next t := ⟨by decide, by decide, ⟨_, rfl⟩, _, rfl⟩

theorem witness_WrCtrlClearsOrReleases :
    (withRecord doneOk).rst = false ∧ (withRecord inData).rst = false ∧ (0x01 : Byte).getLsbD 0 = true ∧
      (0xFE : Byte).getLsbD 0 = false ∧ (0xFE : Byte).getLsbD 1 = true ∧ (0xFC : Byte).getLsbD 1 = false := by decide

theorem witness_CtrlWritesAreIdempotent : ∃ t, exec (.wrCtrl 0x02) (withRecord doneOk) = .next t := ⟨_, rfl⟩

theorem witness_ClearIsASoftReset : ∃ t u, (withRecord doneOk).rst = false ∧ (0x01 : Byte).getLsbD 0 = true ∧
    exec (.wrCtrl 0x01) (withRecord doneOk) = .next t ∧
    step { withRecord doneOk with turns := [.reset true] } = .next u := ⟨_, _, rfl, by decide, rfl, rfl⟩

/-- CLEAR in the middle of a buffer, and ACK of a result with BEAT_ERR set. -/
theorem witness_ReleaseMakesTheResultUnreadable :
    ((0x01 : Byte).getLsbD 0 = true ∧ ∃ t, exec (.wrCtrl 0x01) (withRecord inData) = .next t) ∧
    ((0x02 : Byte).getLsbD 1 = true ∧ doneShort.phase = .done ∧ ∃ t, exec (.wrCtrl 0x02) (withRecord doneShort) = .next t) :=
  ⟨⟨by decide, _, rfl⟩, by decide, rfl, _, rfl⟩

theorem witness_WritesOutsideCtrlAreIgnored :
    (hostWE 0x20100 = true ∧ hostAddr 0x20100 ≠ 0x000#9) ∧ hostWE 0x3FFAB = true ∧ hostAddr 0x3FFAB ≠ 0x000#9 := by decide

theorem witness_EveryReadReturnsItsRegister :
    (withRecord doneOk).rst = false ∧ hostWE 0x00000 = false ∧ hostWE 0x1FFFF = false := by decide

theorem witness_FrameFieldReadsAreMasked : (withRecord doneOk).rst = false ∧ (withRecord inData).rst = false := ⟨rfl, rfl⟩

theorem witness_RdStatusReturnsTheStatusBits : (withRecord doneOk).rst = false := rfl

theorem witness_RdErrcodeAndRdKindValues : (withRecord doneShort).rst = false ∧ (withRecord doneOk).rst = false := ⟨rfl, rfl⟩

theorem witness_RdPayloadReturnsThePayloadByte : (withRecord doneOk).rst = false := rfl

/-- Reads and writes at both ends of the reserved range. -/
theorem witness_ReservedOffsetsAndCtrlReadZero : (withRecord doneOk).rst = false ∧
    hostAddr 0x00A00 = 0x00A#9 ∧ hostAddr 0x0FFFF = 0x0FF#9 ∧ hostAddr 0x20A55 = 0x00A#9 ∧ hostAddr 0x2FF00 = 0x0FF#9 ∧
      0x00A#9 ≤ 0x0FF#9 := by decide

theorem witness_ReadsHaveNoEffect : ∀ i ∈ [Instr.rdStatus 0x00, .rdPayload 255 0x00, .rdRsvd 0x0A 0x00], i.isRead = true := by
  decide

theorem witness_StatusReadsOneOfFiveValues : ∀ x ∈ [Regs.atReset, inData, inDrain, doneShort, doneOk], x.inv := by decide

theorem witness_NothingIsReadableWithoutADecodedFrame :
    ¬(doneShort.phase = .done ∧ doneShort.okf = true) ∧ inSuffix.phase ≠ .done := by decide

theorem witness_EveryStepKeepsTheInvariant : ∃ t, (offering inData 0x201).inv ∧ step (offering inData 0x201) = .next t :=
  ⟨_, by decide, rfl⟩

theorem witness_NoStepTraps : (offering atLastByte 0x2FF).inv ∧
    step { State.reset with turns := [.host], host := [⟨4, 0x00100⟩] } = .refused (.hostAccessWidth 4) := ⟨by decide, rfl⟩

theorem witness_OnlyCtrlWritesHaveAnEffect : ∃ t, (Instr.wrCtrl 0x02).port = .host ∧
    exec (.wrCtrl 0x02) (withRecord doneOk) = .next t ∧ t.x ≠ (withRecord doneOk).x := ⟨_, rfl, rfl, by decide⟩

/-- One state for each of the two ways out. -/
theorem witness_LatchedResultStaysUntilReleased :
    (∃ t, step { withRecord doneOk with turns := [.reset true] } = .next t ∧ t.x ≠ doneOk) ∧
    ∃ t, step (issuing doneOk 0x20002) = .next t ∧ t.x ≠ doneOk := ⟨⟨_, rfl, by decide⟩, _, rfl, by decide⟩

theorem witness_DoneRisesAndFallsAsTheSpecSays :
    (∃ t, (offering inCsum 0x217).doneO = false ∧ step (offering inCsum 0x217) = .next t ∧ t.doneO = true) ∧
    ∃ t, (issuing doneOk 0x20002).doneO = true ∧ step (issuing doneOk 0x20002) = .next t ∧ t.doneO = false :=
  ⟨⟨_, by decide, rfl, by decide⟩, _, by decide, rfl, by decide⟩

theorem witness_EveryLastBeatLatchesAResult : (withRecord atLastByte).inv ∧ (withRecord atLastByte).rst = false ∧
    atLastByte.phase ≠ .done ∧ beatLast 0x2FF = true := ⟨by decide, by decide, by decide, by decide⟩

theorem witness_PayloadIsWrittenOnlyByBytesInData : ∃ t, step (offering inData 0x001) = .next t ∧
    t.x.pay ≠ (offering inData 0x001).x.pay := ⟨_, rfl, by decide⟩

theorem witness_ClearAtTheSameEdgeDiscardsTheBeat :
    ∃ s : State, s.inv ∧ s.rst = false ∧ s.x.phase ≠ .done ∧ s.stream = [0x217] ∧ s.host = [⟨1, 0x20001⟩] ∧
      hostWE 0x20001 = true ∧ hostAddr 0x20001 = 0x000#9 ∧ (0x20001 : HostWord).getLsbD 0 = true ∧
      s.turns = edgeTurns 0x20001 ++ [] :=
  ⟨{ withRecord inCsum with stream := [0x217], host := [⟨1, 0x20001⟩], turns := edgeTurns 0x20001 },
    by decide, by decide, by decide, rfl, rfl, by decide, by decide, by decide, rfl⟩

theorem witness_ReservedBeatsChangeOnlyBeatErr :
    (∀ i ∈ [Instr.beatRsvd 0x00, .push 0x01, .pushl 0x03], i.port = .stream) ∧
      ∃ t, runOps [.beatRsvd 0x00, .push 0x01, .pushl 0x03] (withRecord inData) = .next t := ⟨by decide, _, rfl⟩

/-- A buffer for each clause: V2, V8, V16 and V10. -/
theorem witness_ParseDecidesInTheOrderOfTheSteps :
    [0xBB, (0x17 : Byte)].length < 3 ∧ (rawAt [0x00, 0x17, 0x13] 0 ≠ 0xBB#8) ∧
    ([0xBB, 0x17, 0x01, (0x05 : Byte)].length < 3 + (rawAt [0xBB, 0x17, 0x01, 0x05] 2).toNat + 1) ∧
    3 + (rawAt [0xBB, 0x17, 0x00, 0x17] 2).toNat + 1 ≤ [0xBB, 0x17, 0x00, (0x17 : Byte)].length := by decide

theorem witness_ParseOfEncodedFrameIsTheFrame : ∃ f, parse [0xBB, 0x17, 0x00, 0x18, 0x7E] = .ok f := ⟨_, rfl⟩

theorem witness_AssembledFrameParsesValid : ([] : List Byte).length ≤ 255 ∧ (List.replicate 255 (0xFF : Byte)).length ≤ 255 :=
  ⟨by decide, by rw [List.length_replicate]⟩

theorem witness_AlignerPlacesEveryByte : inCsum.inv ∧ Aligned [0xBB, 0x17, 0x00] inCsum :=
  ⟨by decide, [], rfl, rfl, rfl, rfl, fun i hi => absurd hi (Nat.not_lt_zero i), rfl⟩

/-- V10 with a reserved beat and a read mixed in, and the empty buffer. -/
theorem witness_DeliveredBufferMeetsTheContract :
    State.reset.inv ∧ State.reset.rst = false ∧ State.reset.x.phase = .idle ∧ delivered [.eob 0x00] = some [] ∧
      delivered [.push 0xBB, .beatRsvd 0x00, .push 0x17, .rdStatus 0x00, .push 0x00, .pushl 0x17] =
        some [0xBB, 0x17, 0x00, 0x17] := ⟨by decide, rfl, rfl, rfl, by decide⟩

theorem witness_ContractHoldsUnderEveryInterleaving :
    ∃ s : State, s.inv ∧ s.rst = false ∧ s.x.phase = .idle ∧ s.stream = [0x0BB, 0x217] ++ [0x0BB] ∧
      delivered (([0x0BB, 0x217] : List BeatWord).map decodeBeat) = some [0xBB, 0x17] ∧
      (∀ a ∈ s.host, a.bytes = 1 ∧ (decodeHost a.word).isCtrlAction = false) ∧ s.host = [⟨1, 0x200FC⟩] ∧
      (∀ p ∈ s.turns, p = .beat ∨ p = .host) ∧ s.turns.getLast? = some .beat ∧ s.turns.count .beat = 2 :=
  ⟨{ State.reset with stream := [0x0BB, 0x217, 0x0BB], host := [⟨1, 0x200FC⟩], turns := [.beat, .host, .beat] },
    by decide, rfl, rfl, rfl, by decide, by decide, rfl, by decide, by decide, by decide⟩

/-- V10 with one suffix byte, sent again with a PUSHL and with an EOB at its end. -/
theorem witness_ReadBackFrameDecodesAgain : ∃ t, State.reset.inv ∧ State.reset.rst = false ∧ State.reset.x.phase = .idle ∧
    delivered [.push 0xBB, .push 0x17, .push 0x00, .push 0x17, .pushl 0x7E] = some [0xBB, 0x17, 0x00, 0x17, 0x7E] ∧
    runOps [.push 0xBB, .push 0x17, .push 0x00, .push 0x17, .pushl 0x7E] State.reset = .next t ∧ t.x.okf = true ∧
    (delivered [.push 0xBB, .push 0x17, .push 0x00, .pushl 0x17] = some (readBack t.x) ∧
      ∀ j ∈ [Instr.push 0xBB, .push 0x17, .push 0x00, .pushl 0x17], j.isReserved = false) ∧
    delivered [.push 0xBB, .push 0x17, .push 0x00, .push 0x17, .eob 0x00] = some (readBack t.x) :=
  ⟨_, by decide, rfl, rfl, by decide, rfl, by decide, ⟨by decide, by decide⟩, by decide⟩

theorem witness_PowerOnPayloadIsUnobservable : ∃ (s : State) (t : State), Memory.wf [(0, 0xAA), (254, 0x01)] ∧ s.x.pay.wf ∧
    s.x = { Regs.atReset with pay := s.x.pay } ∧ Sys2Proof.core.run 2 s = .next t ∧ t.x.phase = .len :=
  ⟨{ State.reset with turns := [.beat, .beat], stream := [0x0BB, 0x017] }, _, by decide, by decide, rfl, rfl, by decide⟩

theorem witness_PlatformAddressReachesItsOffset : ∃ base lo hi : Nat, lo < base ∧ base + 512 ≤ hi := ⟨1, 0, 513, by decide⟩

/-- The last offset of the block, wherever the platform puts it. -/
theorem witness_PlatformReadReturnsTheRegister : ∃ (s : State) (h : HostAccess), s.rst = false ∧
    platformAccess false (Config.fpcvBase + (0x1FF : Offset).toNat) 1 0x00 = some h ∧ s.turns = [.host] ∧ s.host = [h] := by
  have e : offsetInBlock Config.fpcvBase (Config.fpcvBase + (0x1FF : Offset).toNat) = some 0x1FF := by
    have : (0x1FF : Offset).toNat = 511 := rfl
    rw [this, offsetInBlock, if_pos (by omega), Nat.add_sub_cancel_left]
    rfl
  exact ⟨issuing Regs.atReset 0x1FF00, ⟨1, 0x1FF00⟩, rfl, by rw [platformAccess, e]; rfl, rfl, rfl⟩

end Sys2Proof.Tests
end

section
/-! SUPPORT. What a port's turn does with an operation it accepts (00_scope.md R10): the turn is spent, the operation leaves
its port, and it runs. The two statements of the scope are these rules joined. -/

namespace Sys2Proof.Machine

/-! ## A turn is handed to its port -/

theorem step_of_beat_turn {s : State} {ts : List Turn} (ht : s.turns = .beat :: ts) :
    step s = offerBeat s.passTurn := by
  rw [step, ht]

theorem step_of_host_turn {s : State} {ts : List Turn} (ht : s.turns = .host :: ts) :
    step s = offerAccess s.passTurn := by
  rw [step, ht]

/-! ## When a port is ready -/

/-- `hr_ready` depends on reset alone: no phase holds the host's accesses back (R130). -/
theorem hrReady_iff (s : State) : s.hrReady = true ↔ s.rst = false := by
  simp [State.hrReady]

/-- The transport's port in a state that takes a beat (R100). -/
theorem offerBeat_of_ready {s : State} {w : BeatWord} {ws : List BeatWord} (hw : s.stream = w :: ws)
    (hr : s.siReady = true) : offerBeat s = exec (decodeBeat w) s.dropBeat := by
  rw [offerBeat, hw]
  exact if_pos hr

/-- The host's port in a state that takes an access of one byte (R52, R130). -/
theorem offerAccess_of_ready {s : State} {w : HostWord} {as : List HostAccess} (ha : s.host = ⟨1, w⟩ :: as)
    (hr : s.hrReady = true) : offerAccess s = exec (decodeHost w) s.dropAccess := by
  rw [offerAccess, ha]
  exact (if_pos hr).trans (if_pos rfl)

/-! ## The state an accepted operation runs in -/

theorem passTurn_dropBeat_eq {s : State} {p : Turn} {ts : List Turn} {w : BeatWord} {ws : List BeatWord}
    (ht : s.turns = p :: ts) (hw : s.stream = w :: ws) :
    s.passTurn.dropBeat = { s with turns := ts, stream := ws } := by
  simp [State.passTurn, State.dropBeat, ht, hw]

theorem passTurn_dropAccess_eq {s : State} {p : Turn} {ts : List Turn} {a : HostAccess} {as : List HostAccess}
    (ht : s.turns = p :: ts) (ha : s.host = a :: as) :
    s.passTurn.dropAccess = { s with turns := ts, host := as } := by
  simp [State.passTurn, State.dropAccess, ht, ha]

/-! ## The statements -/

/-- Settles O5: the turn goes to the transport's port, which is ready outside DONE with reset released. -/
theorem stepRunsTheAcceptedBeat : Obligations.StepRunsTheAcceptedBeat := by
  intro s ts w ws ht hw hphase hrst
  have ready : s.passTurn.siReady = true := (siReady_iff _).mpr ⟨hphase, hrst⟩
  calc step s = offerBeat s.passTurn := step_of_beat_turn ht
    _ = exec (decodeBeat w) s.passTurn.dropBeat := offerBeat_of_ready hw ready
    _ = exec (decodeBeat w) { s with turns := ts, stream := ws } := by rw [passTurn_dropBeat_eq ht hw]

/-- Settles O6: the turn goes to the host's port, which is ready whenever reset is released. -/
theorem stepRunsTheAcceptedTransaction : Obligations.StepRunsTheAcceptedTransaction := by
  intro s ts w as ht ha hrst
  have ready : s.passTurn.hrReady = true := (hrReady_iff _).mpr hrst
  calc step s = offerAccess s.passTurn := step_of_host_turn ht
    _ = exec (decodeHost w) s.passTurn.dropAccess := offerAccess_of_ready ha ready
    _ = exec (decodeHost w) { s with turns := ts, host := as } := by rw [passTurn_dropAccess_eq ht ha]

end Sys2Proof.Machine
end

section
/-! SUPPORT. What a host operation answers while reset is released (10_state.md section 3, 41_host_ops.md): the value each
register reads in terms of the record, and the statements about single reads, the reset values and the host's writes. -/

namespace Sys2Proof.Machine

/-! ## Accepted accesses -/

/-- A read while reset is released grows the list of returned bytes and changes nothing else (R130). -/
theorem acceptRead_of_released (v : Regs → Byte) {s : State} (hrst : s.rst = false) :
    acceptRead v s = .next { s with rdata := v s.x :: s.rdata } := by
  rw [acceptRead_eq, if_neg (by simp [hrst])]
  rfl

/-- A write outside CTRL leaves the state, in reset or not (R133). -/
theorem exec_wrIgn_eq (a : Offset) (d : Byte) (s : State) : exec (.wrIgn a d) s = .next s := by
  rw [exec_wrIgn, acceptWrite_eq]
  cases s.rst <;> rfl

theorem decodeHost_of_read {w : HostWord} (h : hostWE w = false) :
    decodeHost w = decodeRead (hostAddr w) (hostWData w) := by
  simp [decodeHost, h]

theorem decodeHost_of_write {w : HostWord} (h : hostWE w = true) (ha : hostAddr w ≠ 0x000#9) :
    decodeHost w = .wrIgn (hostAddr w) (hostWData w) := by
  simp [decodeHost, h, ha]

/-- The reserved offsets of R40 are exactly those of the reserved row of R30. -/
theorem hostRegAt_reserved_iff (a : Offset) : hostRegAt a = .reserved ↔ 0x00A#9 ≤ a ∧ a ≤ 0x0FF#9 := by
  revert a; decide

/-! ## The bits of STATUS (R35) -/

theorem Regs.busy_iff (x : Regs) : x.busy = true ↔ x.phase ≠ .idle ∧ x.phase ≠ .done := by
  simp [Regs.busy]

theorem Regs.doneO_iff (x : Regs) : x.doneO = true ↔ x.phase = .done := by
  simp [Regs.doneO]

/-- The bits of STATUS, lowest first; there are no others. -/
theorem Regs.statusValue_getLsbD (x : Regs) (k : Nat) :
    x.statusValue.getLsbD k = [x.busy, x.doneO, x.visible, x.visible && x.csv, x.berr].getD k false := by
  match k with
  | 0 | 1 | 2 | 3 | 4 | 5 | 6 | 7 =>
    unfold Regs.statusValue
    cases x.berr <;> cases x.visible <;> cases x.csv <;> cases x.doneO <;> cases x.busy <;> rfl
  | k + 8 => simp

/-- In IDLE only BEAT_ERR can be set. -/
theorem Regs.statusValue_of_idle {x : Regs} (h : x.phase = .idle) :
    x.statusValue = 0x00#8 ||| (if x.berr = true then 0x10#8 else 0x00#8) := by
  rw [Regs.statusValue_eq]
  cases x.berr <;> simp [Regs.visible, Regs.doneO, Regs.busy, h]

/-- While a buffer is in progress BUSY is set, and of the others only BEAT_ERR can be. -/
theorem Regs.statusValue_of_busy {x : Regs} (h : x.phase ≠ .idle ∧ x.phase ≠ .done) :
    x.statusValue = 0x01#8 ||| (if x.berr = true then 0x10#8 else 0x00#8) := by
  rw [Regs.statusValue_eq]
  cases x.berr <;> simp [Regs.visible, Regs.doneO, Regs.busy, h]

/-- In DONE the bits of the latched result are set: OK, and CSUM_VALID only with it. -/
theorem Regs.statusValue_of_done {x : Regs} (h : x.phase = .done) :
    x.statusValue = (if x.okf = true then if x.csv = true then 0x0E#8 else 0x06#8 else 0x02#8) |||
      (if x.berr = true then 0x10#8 else 0x00#8) := by
  have hvisible : x.visible = x.okf := by simp [Regs.visible, h]
  rw [Regs.statusValue_eq, hvisible]
  cases x.berr <;> cases x.okf <;> cases x.csv <;> simp [Regs.doneO, Regs.busy, h]

/-! ## The read values of the other registers -/

/-- The mask of R37 in terms of the phase and OKF. -/
theorem Regs.masked_eq (x : Regs) (v : Byte) :
    x.masked v = if x.phase = .done ∧ x.okf = true then v else 0x00 := by
  simp only [Regs.masked, Regs.visible_iff]

theorem Regs.readErrcode_of_not_done {x : Regs} (h : x.phase ≠ .done) : x.readErrcode = 0x00 := if_neg h

theorem Regs.readErrcode_toNat (x : Regs) :
    x.readErrcode.toNat = if x.phase = .done then x.errc.toNat else 0 := by
  have := x.errc.isLt
  unfold Regs.readErrcode
  split
  · simp only [BitVec.truncate_eq_setWidth, BitVec.toNat_setWidth]
    omega
  · rfl

theorem Regs.readKind_eq (x : Regs) :
    x.readKind = if x.phase = .done ∧ x.okf = true ∧ x.typer = 0x17#8 then 0x01#8 else 0x00#8 := by
  simp only [Regs.readKind, Bool.and_eq_true, Regs.visible_iff, beq_iff_eq, Config.tagType, and_assoc]
  rfl

theorem Regs.readPayload_eq (i : Byte) (x : Regs) :
    x.readPayload i =
      if x.phase = .done ∧ x.okf = true ∧ i.toNat < x.lenr.toNat then x.pay.read i.toNat else 0x00#8 := by
  simp only [Regs.readPayload, Bool.and_eq_true, Regs.visible_iff, BitVec.ult, decide_eq_true_eq, and_assoc]
  rfl

/-- No frame has a payload byte 255: LENGTH is at most 255 (R41). -/
theorem Regs.readPayload_255 (x : Regs) : x.readPayload 255 = 0x00 := by
  have := x.lenr.isLt
  have index : (255 : Byte).toNat = 255 := rfl
  refine (Regs.readPayload_eq 255 x).trans (if_neg ?_)
  rintro ⟨-, -, h⟩
  omega

/-- In IDLE with BEAT_ERR clear every register reads 0x00 (R182). -/
theorem Regs.readReg_of_idle {x : Regs} (h : x.phase = .idle) (hberr : x.berr = false) (r : HostReg) :
    x.readReg r = 0x00 := by
  have hv : x.visible = false := by simp [Regs.visible, h]
  by_cases hs : r = .status
  · subst hs
    exact (Regs.statusValue_of_idle h).trans (by simp [hberr])
  · by_cases he : r = .errcode
    · subst he
      exact Regs.readErrcode_of_not_done (by simp [h])
    · exact Regs.readReg_of_not_visible hv r hs he

/-! ## Reset -/

/-- The reset values meet the invariant whatever `PAY` holds (R24, R43). -/
theorem resetEdge_inv {x : Regs} (h : x.pay.wf) : (resetEdge x).inv := by
  refine ⟨?counts, ?head, ?result, h⟩
  case counts => simp [Regs.countsAgree]
  case head => simp [Regs.headAgrees, Regs.busy]
  case result => simp [Regs.resultAgrees, Regs.busy]

theorem step_of_reset_turn {s : State} {level : Bool} {ts : List Turn} (ht : s.turns = .reset level :: ts) :
    step s = .next (driveReset level s.passTurn) := by
  rw [step, ht]

/-! ## The statements -/

/-- Settles O30: the word decodes to the read of the register at its offset, and the port is ready. -/
theorem everyReadReturnsItsRegister : Obligations.EveryReadReturnsItsRegister := by
  intro s w hrst hwe
  rw [decodeHost_of_read hwe, exec_decodeRead, acceptRead_of_released _ hrst]

/-- Settles O37: STATUS by the phase, and in DONE by OKF and CSV; the latched head is the start marker (R24 item 4). -/
theorem statusReadsOneOfFiveValues : Obligations.StatusReadsOneOfFiveValues := by
  rintro x ⟨-, -, ⟨hok, -, -, -⟩, -⟩
  have bit2 : x.readStatus.getLsbD 2 = x.visible := x.statusValue_getLsbD 2
  refine ⟨?status, ?head⟩
  case head =>
    rw [bit2]
    by_cases hv : x.visible = true
    · obtain ⟨hd, ho⟩ := x.visible_iff.mp hv
      obtain ⟨-, hhead, -, -⟩ := hok hd ho
      rw [if_pos hv, Regs.readHead, Regs.masked_of_visible hv, hhead]
      rfl
    · rw [if_neg hv]
      exact Regs.masked_of_not_visible (by simpa using hv) _
  case status =>
    by_cases hi : x.phase = .idle
    · exact ⟨0x00, by simp, Regs.statusValue_of_idle hi⟩
    by_cases hd : x.phase = .done
    · exact ⟨_, by split_ifs <;> simp, Regs.statusValue_of_done hd⟩
    · exact ⟨0x01, by simp, Regs.statusValue_of_busy ⟨hi, hd⟩⟩

/-- Settles O42: of everything an operation can do, only a CTRL write is the host's and changes the record, and of what a
CTRL write can do, only CLEAR and an ACK in DONE. -/
theorem onlyCtrlWritesHaveAnEffect : Obligations.OnlyCtrlWritesHaveAnEffect := by
  intro s t i hport hexec hx
  rcases exec_next_cases hexec with ⟨-, y, -, hbeat⟩ | ⟨-, v, rfl, -⟩ | ⟨-, v, rfl, rfl⟩ | rfl
  · rcases hbeat with ⟨b, rfl, -⟩ | ⟨b, z, rfl, -⟩ | ⟨d, rfl, -⟩ | ⟨d, rfl, -⟩ <;> cases hport
  · exact absurd rfl hx
  · rcases ctrlWrite_cases v s.x with ⟨hclear, hw⟩ | ⟨-, hack, hdone, hw⟩ | ⟨-, -, hw⟩
    · exact ⟨v, rfl, .inl hclear, by simp [hw]⟩
    · exact ⟨v, rfl, .inr ⟨hack, hdone⟩, by simp [hw]⟩
    · exact absurd hw hx
  · exact absurd rfl hx

/-- Settles O10: the two turns of the reset agent leave the reset values, in which every register reads 0x00. -/
theorem everyReadIsZeroAfterReset : Obligations.EveryReadIsZeroAfterReset := by
  intro s ts ht
  have ht' : (driveReset true s.passTurn).turns = .reset false :: ts := congrArg List.tail ht
  exact ⟨_, _, step_of_reset_turn ht, step_of_reset_turn ht', rfl, rfl, rfl,
    fun a => Regs.readReg_of_idle (x := resetEdge s.x) rfl rfl (hostRegAt a)⟩

/-- Settles O31: each of the six reads is the mask of R37 over its own register. -/
theorem frameFieldReadsAreMasked : Obligations.FrameFieldReadsAreMasked := by
  intro s d hrst seen
  have read (field : Regs → Byte) : acceptRead (fun x => x.masked (field x)) s =
      .next { s with rdata := seen (field s.x) :: s.rdata } := by
    rw [acceptRead_of_released _ hrst, Regs.masked_eq]
  exact ⟨read Regs.headr, read Regs.typer, read Regs.lenr, read Regs.csrx, read Regs.acc, read Regs.sfx⟩

/-- Settles O32: the returned byte is STATUS, whose bits are the five of R35. -/
theorem rdStatusReturnsTheStatusBits : Obligations.RdStatusReturnsTheStatusBits := by
  intro s d hrst
  refine ⟨s.x.statusValue, acceptRead_of_released _ hrst, ?_⟩
  simp only [Regs.statusValue_getLsbD]
  refine ⟨?busy, ?done, ?ok, ?csumValid, rfl, rfl, rfl, rfl⟩
  case busy => exact Bool.eq_iff_iff.mpr (by simpa using s.x.busy_iff)
  case done => exact Bool.eq_iff_iff.mpr (by simpa using s.x.doneO_iff)
  case ok => exact Bool.eq_iff_iff.mpr (by simpa using s.x.visible_iff)
  case csumValid => exact Bool.eq_iff_iff.mpr (by simp [Regs.visible_iff, and_assoc])

/-- Settles O33: the two read values in terms of the record. -/
theorem rdErrcodeAndRdKindValues : Obligations.RdErrcodeAndRdKindValues := by
  intro s d hrst
  refine ⟨⟨_, acceptRead_of_released _ hrst, s.x.readErrcode_toNat⟩, ?_⟩
  rw [exec_rdKind, acceptRead_of_released _ hrst, Regs.readKind_eq]

/-- Settles O34: the payload window in terms of the record, and its last index, which no LENGTH exceeds. -/
theorem rdPayloadReturnsThePayloadByte : Obligations.RdPayloadReturnsThePayloadByte := by
  refine ⟨fun s i d hrst => ?_, fun s d hrst => ?_⟩
  · rw [exec_rdPayload, acceptRead_of_released _ hrst, Regs.readPayload_eq]
  · rw [exec_rdPayload, acceptRead_of_released _ hrst, Regs.readPayload_255]

/-- Settles O35: a reserved offset is read through the reserved register and written as an ignored write. -/
theorem reservedOffsetsAndCtrlReadZero : Obligations.ReservedOffsetsAndCtrlReadZero := by
  refine ⟨fun s w hrst hlo hhi => ?_, fun s a d hrst =>
    ⟨acceptRead_of_released Regs.readCtrl hrst, acceptRead_of_released Regs.readReserved hrst⟩⟩
  have reserved : hostRegAt (hostAddr w) = .reserved := (hostRegAt_reserved_iff _).mpr ⟨hlo, hhi⟩
  cases hwe : hostWE w
  · rw [everyReadReturnsItsRegister s w hrst hwe, Regs.readAt, reserved]
    rfl
  · have hctrl : hostAddr w ≠ 0x000#9 := fun h => by
      rw [(hostRegAt_ctrl_iff _).mpr h] at reserved
      cases reserved
    rw [decodeHost_of_write hwe hctrl, exec_wrIgn_eq]
    rfl

/-- Settles O39: the state right after reset holds the values of a reset edge. -/
theorem resetMeetsTheInvariant : Obligations.ResetMeetsTheInvariant :=
  ⟨resetEdge_inv State.reset_pay_wf, fun _ => rfl⟩

end Sys2Proof.Machine
end

section
/-! SUPPORT. The power-on content of `PAY` cannot be observed (70_reset_and_hazards.md R183). A run is followed in a second
machine whose record differs only in `PAY`, and there only in cells that hold no byte of the current buffer. Every
operation keeps the two so, and no read returns another cell. -/

namespace Sys2Proof.Machine

/-! ## A record with another payload buffer -/

/-- The record with another content of `PAY`. -/
def Regs.withPay (x : Regs) (p : Memory) : Regs := { x with pay := p }

/-- The state with another content of `PAY`. -/
def State.withPay (s : State) (p : Memory) : State := s.withRegs (s.x.withPay p)

@[simp] theorem Regs.withPay_phase (x : Regs) (p : Memory) : (x.withPay p).phase = x.phase := rfl
@[simp] theorem Regs.withPay_hdrbad (x : Regs) (p : Memory) : (x.withPay p).hdrbad = x.hdrbad := rfl
@[simp] theorem Regs.withPay_headr (x : Regs) (p : Memory) : (x.withPay p).headr = x.headr := rfl
@[simp] theorem Regs.withPay_typer (x : Regs) (p : Memory) : (x.withPay p).typer = x.typer := rfl
@[simp] theorem Regs.withPay_lenr (x : Regs) (p : Memory) : (x.withPay p).lenr = x.lenr := rfl
@[simp] theorem Regs.withPay_cnt (x : Regs) (p : Memory) : (x.withPay p).cnt = x.cnt := rfl
@[simp] theorem Regs.withPay_csrx (x : Regs) (p : Memory) : (x.withPay p).csrx = x.csrx := rfl
@[simp] theorem Regs.withPay_acc (x : Regs) (p : Memory) : (x.withPay p).acc = x.acc := rfl
@[simp] theorem Regs.withPay_sfx (x : Regs) (p : Memory) : (x.withPay p).sfx = x.sfx := rfl
@[simp] theorem Regs.withPay_errc (x : Regs) (p : Memory) : (x.withPay p).errc = x.errc := rfl
@[simp] theorem Regs.withPay_okf (x : Regs) (p : Memory) : (x.withPay p).okf = x.okf := rfl
@[simp] theorem Regs.withPay_csv (x : Regs) (p : Memory) : (x.withPay p).csv = x.csv := rfl
@[simp] theorem Regs.withPay_berr (x : Regs) (p : Memory) : (x.withPay p).berr = x.berr := rfl
@[simp] theorem Regs.withPay_pay (x : Regs) (p : Memory) : (x.withPay p).pay = p := rfl
@[simp] theorem Regs.withPay_self (x : Regs) : x.withPay x.pay = x := rfl

@[simp] theorem State.withPay_x (s : State) (p : Memory) : (s.withPay p).x = s.x.withPay p := rfl
@[simp] theorem State.withPay_rst (s : State) (p : Memory) : (s.withPay p).rst = s.rst := rfl
@[simp] theorem State.withPay_stream (s : State) (p : Memory) : (s.withPay p).stream = s.stream := rfl
@[simp] theorem State.withPay_host (s : State) (p : Memory) : (s.withPay p).host = s.host := rfl
@[simp] theorem State.withPay_turns (s : State) (p : Memory) : (s.withPay p).turns = s.turns := rfl
@[simp] theorem State.withPay_siReady (s : State) (p : Memory) : (s.withPay p).siReady = s.siReady := rfl
@[simp] theorem State.withPay_hrReady (s : State) (p : Memory) : (s.withPay p).hrReady = s.hrReady := rfl

/-! ## The cells that can still be read -/

/-- Cell `i` of `PAY` holds a byte of the buffer in progress, or of the frame that is latched. -/
def Regs.holdsByte (x : Regs) (i : Nat) : Prop :=
  match x.phase with
  | .idle | .type | .len | .drain => False
  | .data => i < x.cnt.toNat
  | .csum | .suffix => i < x.lenr.toNat
  | .done => x.okf = true ∧ i < x.lenr.toNat

theorem Regs.holdsByte_of_visible {x : Regs} {i : Nat} (h : x.phase = .done ∧ x.okf = true ∧ i < x.lenr.toNat) :
    x.holdsByte i := by
  simp [Regs.holdsByte, h]

/-- Two contents of `PAY` agree on every cell that holds a byte of the record's buffer or frame. -/
structure PayAgrees (x : Regs) (p : Memory) : Prop where
  wf : x.pay.wf
  wf_other : p.wf
  cells : ∀ i, x.holdsByte i → p.read i = x.pay.read i

/-- Every register reads the same with a content of `PAY` that agrees (R41 names no other cell). -/
theorem PayAgrees.readReg {x : Regs} {p : Memory} (h : PayAgrees x p) (r : HostReg) :
    (x.withPay p).readReg r = x.readReg r := by
  cases r with
  | payload i =>
    simp only [Regs.readReg, Regs.readPayload_eq]
    exact if_ctx_congr Iff.rfl (fun hv => h.cells _ (Regs.holdsByte_of_visible hv)) (fun _ => rfl)
  | _ => rfl

/-! ## The operations over the record -/

/-- A procedure over the record that neither reads nor writes `PAY`, and after which no further cell holds a byte. -/
structure PayUntouched (g : Regs → Regs) : Prop where
  withPay : ∀ x p, g (x.withPay p) = (g x).withPay p
  holdsByte : ∀ x i, (g x).holdsByte i → x.holdsByte i

theorem PayUntouched.agrees {g : Regs → Regs} (hg : PayUntouched g) {x : Regs} {p : Memory} (h : PayAgrees x p) :
    PayAgrees (g x) p := by
  have hself : g x = (g x).withPay x.pay := hg.withPay x x.pay
  have hpay : (g x).pay = x.pay := by rw [hself, Regs.withPay_pay]
  exact ⟨hpay ▸ h.wf, h.wf_other, fun i hi => hpay ▸ h.cells i (hg.holdsByte x i hi)⟩

theorem payUntouched_endOfBuffer : PayUntouched endOfBuffer where
  withPay x p := by
    rw [endOfBuffer, endOfBuffer, Regs.withPay_phase]
    cases x.phase <;> rfl
  holdsByte x i hi := by
    rcases endOfBuffer_cases x with ⟨hp, h⟩ | ⟨-, h⟩ | ⟨-, h⟩ | ⟨-, h⟩ <;> rw [h] at hi
    · simpa [Regs.holdsByte, hp] using hi
    · simp [Regs.holdsByte] at hi
    · exact hi
    · simp [Regs.holdsByte] at hi

theorem payUntouched_markReserved : PayUntouched markReserved := ⟨fun _ _ => rfl, fun _ _ => id⟩

theorem payUntouched_ignoredWrite : PayUntouched ignoredWrite := ⟨fun _ _ => rfl, fun _ _ => id⟩

theorem payUntouched_resetEdge : PayUntouched resetEdge := ⟨fun _ _ => rfl, fun _ _ => False.elim⟩

theorem payUntouched_ctrlWrite (v : Byte) : PayUntouched (ctrlWrite v) where
  withPay x p := by
    simp only [ctrlWrite, ackResult, apply_ite (Regs.withPay · p)]
    rfl
  holdsByte x i hi := by
    rcases ctrlWrite_cases v x with ⟨-, h⟩ | ⟨-, -, -, h⟩ | ⟨-, -, h⟩ <;> rw [h] at hi
    · exact hi.elim
    · exact hi.elim
    · exact hi

/-- A procedure over the record that succeeds does the same with a content of `PAY` that agrees, and keeps the agreement. -/
def RegsPayBlind (f : Regs → Except Fault Regs) : Prop :=
  ∀ ⦃x y : Regs⦄ ⦃p : Memory⦄, PayAgrees x p → f x = .ok y → ∃ q, f (x.withPay p) = .ok (y.withPay q) ∧ PayAgrees y q

theorem PayUntouched.regsPayBlind {g : Regs → Regs} (hg : PayUntouched g) : RegsPayBlind (fun x => .ok (g x)) := by
  intro x y p ha hy
  obtain rfl := Except.ok.inj hy
  exact ⟨p, congrArg Except.ok (hg.withPay x p), hg.agrees ha⟩

/-- Outside DATA the aligner's byte step does not look at `PAY`. -/
theorem takeByte_withPay (b : Byte) {x : Regs} (p : Memory) (h : x.phase ≠ .data) :
    takeByte b (x.withPay p) = (takeByte b x).map (·.withPay p) := by
  rw [takeByte, takeByte, Regs.withPay_phase]
  cases hp : x.phase with
  | data => exact absurd hp h
  | _ => rfl

/-- Outside DATA a byte keeps `PAY`, and no further cell holds a byte. -/
theorem takeByte_pay_of_not_data {b : Byte} {x y : Regs} (hy : takeByte b x = .ok y) (h : x.phase ≠ .data) :
    y.pay = x.pay ∧ ∀ i, y.holdsByte i → x.holdsByte i := by
  rcases takeByte_cases hy with ⟨-, rfl⟩ | ⟨-, rfl⟩ | ⟨-, rfl⟩ | ⟨hp, -⟩ | ⟨hp, rfl⟩ | ⟨hp, rfl⟩ | ⟨-, rfl⟩ | ⟨-, rfl⟩
  · exact ⟨rfl, fun _ => False.elim⟩
  · exact ⟨rfl, fun _ => False.elim⟩
  · refine ⟨rfl, fun i hi => ?_⟩
    simp only [Regs.holdsByte, takeLength_phase, takeLength_lenr, takeLength_cnt] at hi
    split_ifs at hi <;> simp_all
  · exact absurd hp h
  · exact ⟨rfl, fun i hi => by simpa [Regs.holdsByte, hp] using hi⟩
  · exact ⟨rfl, fun i hi => by simpa [Regs.holdsByte, hp] using hi⟩
  · exact ⟨rfl, fun _ => id⟩
  · exact ⟨rfl, fun _ => id⟩

/-- Two memories that take one byte at one cell agree there, and elsewhere as before. -/
theorem Memory.read_write_congr {m p : Memory} (hm : m.wf) (hp : p.wf) (c i : Nat) (v : Byte)
    (h : i ≠ c → p.read i = m.read i) : (p.write c v).read i = (m.write c v).read i := by
  by_cases hic : i = c
  · rw [hic, Memory.read_write_same c v hm, Memory.read_write_same c v hp]
  · rw [Memory.read_write_other _ _ _ _ hic, Memory.read_write_other _ _ _ _ hic, h hic]

/-- A payload byte goes to the same cell of both contents, and the cell it goes to is the one that becomes readable. -/
theorem takeData_withPay_of_agrees (b : Byte) {x y : Regs} {p : Memory} (hp : x.phase = .data) (ha : PayAgrees x p)
    (hy : takeData b x = .ok y) : ∃ q, takeData b (x.withPay p) = .ok (y.withPay q) ∧ PayAgrees y q := by
  rcases takeData_cases b x with ⟨hc, ht⟩ | ⟨-, ht⟩
  · rcases takeData_cases b (x.withPay p) with ⟨-, ht'⟩ | ⟨hc', -⟩
    · obtain rfl := Except.ok.inj (ht.symm.trans hy)
      refine ⟨p.write x.cnt.toNat b, ht', Memory.wf_write b ha.wf hc, Memory.wf_write b ha.wf_other hc, fun i hi => ?_⟩
      refine Memory.read_write_congr ha.wf ha.wf_other _ i b fun hic => ha.cells i ?_
      have hle : i < x.cnt.toNat + 1 := by
        by_cases hl : x.cnt.toNat + 1 = x.lenr.toNat
        · simpa [Regs.holdsByte, hl] using hi
        · have hi' : i < (x.cnt.toNat + 1) % 256 := by simpa [Regs.holdsByte, hl] using hi
          omega
      simp only [Regs.holdsByte, hp]
      omega
    · exact absurd hc' (Nat.ne_of_lt hc)
  · cases ht.symm.trans hy

theorem regsPayBlind_takeByte (b : Byte) : RegsPayBlind (takeByte b) := by
  intro x y p ha hy
  by_cases hp : x.phase = .data
  · have run (z : Regs) (hz : z.phase = .data) : takeByte b z = takeData b z := by rw [takeByte, hz]
    rw [run x hp] at hy
    rw [run (x.withPay p) hp]
    exact takeData_withPay_of_agrees b hp ha hy
  · obtain ⟨hpay, hholds⟩ := takeByte_pay_of_not_data hy hp
    refine ⟨p, ?_, hpay ▸ ha.wf, ha.wf_other, fun i hi => hpay ▸ ha.cells i (hholds i hi)⟩
    rw [takeByte_withPay b p hp, hy]
    rfl

theorem RegsPayBlind.map {f : Regs → Except Fault Regs} {g : Regs → Regs} (hf : RegsPayBlind f) (hg : PayUntouched g) :
    RegsPayBlind (fun x => (f x).map g) := by
  intro x y p ha hy
  cases hz : f x with
  | error e => simp [hz, Except.map] at hy
  | ok z =>
    simp only [hz, Except.map, Except.ok.injEq] at hy
    subst hy
    obtain ⟨q, hq, haq⟩ := hf ha hz
    exact ⟨q, by simp only [hq, Except.map, hg.withPay], hg.agrees haq⟩

/-! ## The operations over the state -/

/-- An action that answers a next state does the same with a content of `PAY` that agrees, and keeps the agreement. -/
def PayBlind (F : State → Host.Outcome State Fault Refusal) : Prop :=
  ∀ ⦃s t : State⦄ ⦃p : Memory⦄, PayAgrees s.x p → F s = .next t →
    ∃ q, F (s.withPay p) = .next (t.withPay q) ∧ PayAgrees t.x q

theorem payBlind_acceptBeat {f : Regs → Except Fault Regs} (hf : RegsPayBlind f) : PayBlind (acceptBeat f) := by
  intro s t p ha ht
  rcases acceptBeat_next ht with ⟨hr, y, hy, rfl⟩ | ⟨hr, rfl⟩
  · obtain ⟨q, hq, haq⟩ := hf ha hy
    exact ⟨q, acceptBeat_ready (s := s.withPay p) hr hq, haq⟩
  · exact ⟨p, acceptBeat_held (s := t.withPay p) hr, ha⟩

theorem payBlind_acceptWrite {g : Regs → Regs} (hg : PayUntouched g) : PayBlind (acceptWrite g) := by
  intro s t p ha ht
  rw [acceptWrite_eq] at ht
  obtain rfl := Host.Outcome.next.inj ht
  refine ⟨p, ?_, ?_⟩
  · rw [acceptWrite_eq, State.withPay_x, hg.withPay, State.withPay_rst]
    split_ifs <;> rfl
  · split_ifs
    · exact ha
    · exact hg.agrees ha

theorem payBlind_acceptRead (r : HostReg) : PayBlind (acceptRead (fun x => x.readReg r)) := by
  intro s t p ha ht
  rw [acceptRead_eq] at ht
  obtain rfl := Host.Outcome.next.inj ht
  refine ⟨p, ?_, ?_⟩
  · rw [acceptRead_eq, State.withPay_x, ha.readReg, State.withPay_rst]
    split_ifs <;> rfl
  · split_ifs
    · exact ha
    · exact ha

/-- Every read is the read of one register. -/
theorem exec_of_isRead {i : Instr} (h : i.isRead = true) : ∃ r : HostReg, exec i = acceptRead (fun x => x.readReg r) := by
  cases i with
  | push | beatRsvd | pushl | eob | wrCtrl | wrIgn => cases h
  | rdCtrl d => exact ⟨.ctrl, rfl⟩
  | rdStatus d => exact ⟨.status, rfl⟩
  | rdErrcode d => exact ⟨.errcode, rfl⟩
  | rdHead d => exact ⟨.head, rfl⟩
  | rdType d => exact ⟨.type, rfl⟩
  | rdLength d => exact ⟨.length, rfl⟩
  | rdCsumRx d => exact ⟨.csumRx, rfl⟩
  | rdCsumCalc d => exact ⟨.csumCalc, rfl⟩
  | rdKind d => exact ⟨.kind, rfl⟩
  | rdSuffixCnt d => exact ⟨.suffixCnt, rfl⟩
  | rdPayload k d => exact ⟨.payload k, rfl⟩
  | rdRsvd a d => exact ⟨.reserved, rfl⟩

theorem payBlind_exec (i : Instr) : PayBlind (exec i) := by
  by_cases h : i.isRead = true
  · obtain ⟨r, hr⟩ := exec_of_isRead h
    rw [hr]
    exact payBlind_acceptRead r
  · cases i with
    | push b => exact payBlind_acceptBeat (regsPayBlind_takeByte b)
    | pushl b => exact payBlind_acceptBeat ((regsPayBlind_takeByte b).map payUntouched_endOfBuffer)
    | eob d => exact payBlind_acceptBeat payUntouched_endOfBuffer.regsPayBlind
    | beatRsvd d => exact payBlind_acceptBeat payUntouched_markReserved.regsPayBlind
    | wrCtrl v => exact payBlind_acceptWrite (payUntouched_ctrlWrite v)
    | wrIgn a d => exact payBlind_acceptWrite payUntouched_ignoredWrite
    | _ => exact absurd rfl h

/-! ## A turn, a step, a run -/

theorem edgeWithoutOperation_withPay (s : State) (p : Memory) :
    edgeWithoutOperation (s.withPay p) = (edgeWithoutOperation s).withPay p := by
  simp only [edgeWithoutOperation, apply_ite (State.withPay · p)]
  rfl

theorem payBlind_edgeWithoutOperation : PayBlind (fun s => .next (edgeWithoutOperation s)) := by
  intro s t p ha ht
  obtain rfl := Host.Outcome.next.inj ht
  refine ⟨p, congrArg Host.Outcome.next (edgeWithoutOperation_withPay s p), ?_⟩
  unfold edgeWithoutOperation
  split_ifs
  · exact payUntouched_resetEdge.agrees ha
  · exact ha

theorem payBlind_driveReset (level : Bool) : PayBlind (fun s => .next (driveReset level s)) := by
  intro s t p ha ht
  obtain rfl := Host.Outcome.next.inj ht
  cases level
  · exact ⟨p, rfl, ha⟩
  · exact ⟨p, rfl, payUntouched_resetEdge.agrees ha⟩

/-- The transport's turn with no beat to accept is an edge without an operation (R100, R180). -/
theorem offerBeat_of_none {s : State} (h : s.stream = [] ∨ s.siReady = false) :
    offerBeat s = .next (edgeWithoutOperation s) := by
  unfold offerBeat
  split
  · rfl
  · rename_i hw
    exact if_neg (by simpa [hw] using h)

/-- The host's turn with no access to accept is an edge without an operation (R180). -/
theorem offerAccess_of_none {s : State} (h : s.host = [] ∨ s.hrReady = false) :
    offerAccess s = .next (edgeWithoutOperation s) := by
  unfold offerAccess
  split
  · rfl
  · rename_i ha
    exact if_neg (by simpa [ha] using h)

/-- An access of another width than one byte answers no next state (R52). -/
theorem bytes_of_offerAccess_next {s t : State} {a : HostAccess} {as : List HostAccess} (ha : s.host = a :: as)
    (hr : s.hrReady = true) (ht : offerAccess s = .next t) : a.bytes = 1 := by
  rw [offerAccess, ha] at ht
  by_contra hb
  simp [hr, hb] at ht

theorem payBlind_offerBeat : PayBlind offerBeat := by
  intro s t p ha ht
  by_cases hnone : s.stream = [] ∨ s.siReady = false
  · rw [offerBeat_of_none hnone] at ht
    rw [offerBeat_of_none (s := s.withPay p) hnone]
    exact payBlind_edgeWithoutOperation ha ht
  · obtain ⟨hne, hr⟩ := not_or.mp hnone
    obtain ⟨w, ws, hw⟩ := List.exists_cons_of_ne_nil hne
    rw [Bool.not_eq_false] at hr
    rw [offerBeat_of_ready hw hr] at ht
    rw [offerBeat_of_ready (s := s.withPay p) hw hr]
    exact payBlind_exec (decodeBeat w) (s := s.dropBeat) ha ht

theorem payBlind_offerAccess : PayBlind offerAccess := by
  intro s t p ha ht
  by_cases hnone : s.host = [] ∨ s.hrReady = false
  · rw [offerAccess_of_none hnone] at ht
    rw [offerAccess_of_none (s := s.withPay p) hnone]
    exact payBlind_edgeWithoutOperation ha ht
  · obtain ⟨hne, hr⟩ := not_or.mp hnone
    obtain ⟨⟨n, w⟩, as, hw⟩ := List.exists_cons_of_ne_nil hne
    rw [Bool.not_eq_false] at hr
    obtain rfl : n = 1 := bytes_of_offerAccess_next hw hr ht
    rw [offerAccess_of_ready hw hr] at ht
    rw [offerAccess_of_ready (s := s.withPay p) hw hr]
    exact payBlind_exec (decodeHost w) (s := s.dropAccess) ha ht

theorem payBlind_step : PayBlind step := by
  intro s t p ha ht
  cases hturns : s.turns with
  | nil =>
    simp only [step, State.withPay_turns, hturns] at ht ⊢
    obtain rfl := Host.Outcome.next.inj ht
    exact ⟨p, rfl, ha⟩
  | cons turn ts =>
    have hturns' : (s.withPay p).turns = turn :: ts := hturns
    cases turn with
    | beat =>
      rw [step_of_beat_turn hturns] at ht
      rw [step_of_beat_turn hturns']
      exact payBlind_offerBeat (s := s.passTurn) ha ht
    | host =>
      rw [step_of_host_turn hturns] at ht
      rw [step_of_host_turn hturns']
      exact payBlind_offerAccess (s := s.passTurn) ha ht
    | reset level =>
      rw [step_of_reset_turn hturns] at ht
      rw [step_of_reset_turn hturns']
      exact payBlind_driveReset level (s := s.passTurn) ha ht

/-- A run of one step and some more goes on from what the step answers. -/
theorem run_succ_next_iff (M : Host.Core) {k : Nat} {s t : M.State} :
    M.run (k + 1) s = .next t ↔ ∃ u, M.step s = .next u ∧ M.run k u = .next t := by
  rw [Host.Core.run]
  cases M.step s <;> simp

theorem payBlind_run (k : Nat) : PayBlind (Sys2Proof.core.run k) := by
  induction k with
  | zero =>
    intro s t p ha ht
    obtain rfl := Host.Outcome.next.inj ht
    exact ⟨p, rfl, ha⟩
  | succ k ih =>
    intro s t p ha ht
    obtain ⟨u, hstep, hrun⟩ := (run_succ_next_iff Sys2Proof.core).mp ht
    obtain ⟨q, hstep', haq⟩ := payBlind_step ha hstep
    obtain ⟨q', hrun', haq'⟩ := ih haq hrun
    exact ⟨q', (run_succ_next_iff Sys2Proof.core).mpr ⟨_, hstep', hrun'⟩, haq'⟩

/-! ## The statement -/

/-- Settles O57: right after reset no cell of `PAY` holds a byte, so every two contents agree, and a run keeps that. -/
theorem powerOnPayloadIsUnobservable : Obligations.PowerOnPayloadIsUnobservable := by
  intro s p k t hp hs hreset hrun
  have agrees : PayAgrees s.x p := ⟨hs, hp, fun i hi => by rw [hreset] at hi; exact hi.elim⟩
  obtain ⟨q, hrun', haq⟩ := payBlind_run k agrees hrun
  exact ⟨t.withPay q, hrun', rfl, rfl, fun a => haq.readReg (hostRegAt a)⟩

end Sys2Proof.Machine
end

section
/-! SUPPORT. The memory model (20_memory.md): where the platform puts the register block (R53, R58), the width of an access
(R52), the effect of a CTRL write (R57), reads (R57), what writes the payload buffer (R50), and a CLEAR at the edge of a beat
(R61). -/

namespace Sys2Proof.Machine

/-! ## The platform's address decoder -/

/-- An address of the block is handed to FPCV as its offset (R53). -/
theorem offsetInBlock_base_add (base : Nat) (a : Offset) : offsetInBlock base (base + a.toNat) = some a := by
  have hlt : base ≤ base + a.toNat ∧ base + a.toNat < base + 512 := ⟨by omega, by have := a.isLt; omega⟩
  rw [offsetInBlock, if_pos hlt, Nat.add_sub_cancel_left, BitVec.ofNat_toNat, BitVec.setWidth_eq]

/-- An address outside the block is not FPCV's (R58). -/
theorem offsetInBlock_of_outside {base addr : Nat} (h : addr < base ∨ base + 512 ≤ addr) : offsetInBlock base addr = none :=
  if_neg (by omega)

/-- An access in the block reaches the host port as the host word of its offset (R74). -/
theorem platformAccess_base_add (we : Bool) (a : Offset) (n : Nat) (v : Byte) :
    platformAccess we (Config.fpcvBase + a.toNat) n v = some ⟨n, hostWord we a v⟩ := by
  rw [platformAccess, offsetInBlock_base_add]
  rfl

/-! ## The operations a port's words decode to -/

theorem port_decodeBeat (w : BeatWord) : (decodeBeat w).port = .stream := by
  unfold decodeBeat
  cases beatLast w <;> cases beatNoByte w <;> rfl

theorem port_decodeHost (w : HostWord) : (decodeHost w).port = .host := by
  have read (r : HostReg) (a d : Byte) : (readOp r a d).port = .host := by cases r <;> rfl
  unfold decodeHost
  split
  · split <;> rfl
  · rw [decodeRead_eq_readOp]
    exact read _ _ _

/-- The beats that carry a byte are those with NOBYTE = 0 (R72). -/
theorem beatNoByte_of_decodeBeat {w : BeatWord} {b : Byte} (h : decodeBeat w = .push b ∨ decodeBeat w = .pushl b) :
    beatNoByte w = false := by
  unfold decodeBeat at h
  cases hn : beatNoByte w
  · rfl
  · cases hl : beatLast w <;> simp [hn, hl] at h

theorem decodeHost_of_ctrl {w : HostWord} (h : hostWE w = true) (ha : hostAddr w = 0x000#9) :
    decodeHost w = .wrCtrl (hostWData w) := by
  simp [decodeHost, h, ha]

theorem hostWData_getLsbD (w : HostWord) {k : Nat} (h : k < 8) : (hostWData w).getLsbD k = w.getLsbD k := by
  simp [hostWData, h]

/-! ## What an operation leaves to the agents -/

/-- No operation touches the reset input, what the ports' agents offer, or the interleaving. -/
theorem exec_keeps_agents {i : Instr} {s t : State} (h : exec i s = .next t) :
    t.rst = s.rst ∧ t.stream = s.stream ∧ t.host = s.host ∧ t.turns = s.turns := by
  rcases exec_next_cases h with ⟨-, y, rfl, -⟩ | ⟨-, v, rfl, -⟩ | ⟨-, v, -, rfl⟩ | rfl
  · exact ⟨rfl, rfl, rfl, rfl⟩
  · exact ⟨rfl, rfl, rfl, rfl⟩
  · exact ⟨rfl, rfl, rfl, rfl⟩
  · exact ⟨rfl, rfl, rfl, rfl⟩

/-- An accepted beat answers a next state, in which only the record is new, where CNT names a cell in DATA. -/
theorem exec_of_ready_beat {i : Instr} {s : State} (hport : i.port = .stream) (hr : s.siReady = true)
    (hcnt : s.x.phase = .data → s.x.cnt.toNat < 255) : ∃ y, exec i s = .next (s.withRegs y) := by
  cases i with
  | push b =>
    obtain ⟨y, hy⟩ := takeByte_ok b s.x hcnt
    exact ⟨y, acceptBeat_ready hr hy⟩
  | pushl b =>
    obtain ⟨y, hy⟩ := takeByte_ok b s.x hcnt
    exact ⟨endOfBuffer y, (exec_pushl b s).trans (acceptBeat_ready hr (by rw [hy]; rfl))⟩
  | eob d => exact ⟨endOfBuffer s.x, (exec_eob d s).trans (acceptBeat_ready hr rfl)⟩
  | beatRsvd d => exact ⟨markReserved s.x, (exec_beatRsvd d s).trans (acceptBeat_ready hr rfl)⟩
  | _ => cases hport

/-- In DATA the invariant leaves CNT a cell of `PAY` to name (R24 item 1). -/
theorem Regs.cnt_lt_of_inv {x : Regs} (h : x.inv) (hp : x.phase = .data) : x.cnt.toNat < 255 := by
  obtain ⟨⟨-, hdata, -⟩, -⟩ := h
  have := hdata hp
  have := x.lenr.isLt
  omega

/-! ## CTRL writes -/

theorem ctrlWrite_of_clear {v : Byte} (h : v.getLsbD 0 = true) (x : Regs) : ctrlWrite v x = clearAll x := if_pos h

/-- CLEAR finds every register clear the second time, and ACK finds no result to release (R57). -/
theorem ctrlWrite_ctrlWrite (v : Byte) (x : Regs) : ctrlWrite v (ctrlWrite v x) = ctrlWrite v x := by
  rcases ctrlWrite_cases v x with ⟨hclear, h⟩ | ⟨hclear, -, -, h⟩ | ⟨-, -, h⟩
  · rw [h, ctrlWrite_of_clear hclear, clearAll_clearAll]
  · rw [h]
    rcases ctrlWrite_cases v { x with phase := .idle } with ⟨hclear', -⟩ | ⟨-, -, hdone, -⟩ | ⟨-, -, h'⟩
    · exact absurd (hclear.symm.trans hclear') Bool.false_ne_true
    · cases hdone
    · exact h'
  · rw [h, h]

/-! ## The host's turn -/

/-- The port of a host that is not in reset refuses an access of another width than one byte (R52). -/
theorem offerAccess_of_wide {s : State} {n : Nat} {w : HostWord} {as : List HostAccess} (ha : s.host = ⟨n, w⟩ :: as)
    (hr : s.hrReady = true) (hn : n ≠ 1) : offerAccess s = .refused (.hostAccessWidth n) := by
  rw [offerAccess, ha]
  exact (if_pos hr).trans (if_neg hn)

/-! ## Reads -/

theorem runOps_cons_of_next {i : Instr} {s t : State} (is : List Instr) (h : exec i s = .next t) :
    runOps (i :: is) s = runOps is t := by
  simp only [runOps, h]

/-- A read changes nothing but the bytes returned, to which it adds one while reset is released (R146). -/
theorem exec_of_isRead_eq {i : Instr} (h : i.isRead = true) (s : State) :
    ∃ vs, exec i s = .next { s with rdata := vs ++ s.rdata } ∧ vs.length = if s.rst = true then 0 else 1 := by
  obtain ⟨r, hr⟩ := exec_of_isRead h
  rw [hr, acceptRead_eq]
  by_cases hrst : s.rst = true
  · exact ⟨[], by rw [if_pos hrst]; rfl, by rw [if_pos hrst]; rfl⟩
  · exact ⟨[s.x.readReg r], by rw [if_neg hrst]; rfl, by rw [if_neg hrst]; rfl⟩

/-! ## What writes the payload buffer -/

theorem edgeWithoutOperation_pay (s : State) : (edgeWithoutOperation s).x.pay = s.x.pay := by
  unfold edgeWithoutOperation
  split <;> rfl

theorem driveReset_pay (level : Bool) (s : State) : (driveReset level s).x.pay = s.x.pay := by
  cases level <;> rfl

theorem ctrlWrite_pay (v : Byte) (x : Regs) : (ctrlWrite v x).pay = x.pay := by
  rcases ctrlWrite_cases v x with ⟨-, h⟩ | ⟨-, -, -, h⟩ | ⟨-, -, h⟩ <;> rw [h]
  rfl

/-- Only a beat that carries a byte, in phase DATA, changes the payload buffer (R50). -/
theorem exec_pay_changes {i : Instr} {s t : State} (h : exec i s = .next t) (hpay : t.x.pay ≠ s.x.pay) :
    s.x.phase = .data ∧ ∃ b, i = .push b ∨ i = .pushl b := by
  have phase_of_takeByte {b : Byte} {y : Regs} (hy : takeByte b s.x = .ok y) (hne : y.pay ≠ s.x.pay) :
      s.x.phase = .data := by
    by_contra hp
    exact hne (takeByte_pay_of_not_data hy hp).1
  rcases exec_next_cases h with ⟨-, y, rfl, hbeat⟩ | ⟨-, v, rfl, -⟩ | ⟨-, v, -, rfl⟩ | rfl
  · rcases hbeat with ⟨b, rfl, hy⟩ | ⟨b, z, rfl, hz, rfl⟩ | ⟨d, -, rfl⟩ | ⟨d, -, rfl⟩
    · exact ⟨phase_of_takeByte hy hpay, b, .inl rfl⟩
    · exact ⟨phase_of_takeByte hz (by simpa using hpay), b, .inr rfl⟩
    · exact absurd (endOfBuffer_pay s.x) hpay
    · exact absurd rfl hpay
  · exact absurd rfl hpay
  · exact absurd (ctrlWrite_pay v s.x) hpay
  · exact absurd rfl hpay

/-! ## The statements -/

/-- Settles O26: both writes run while reset is released, and the record's update is idempotent. -/
theorem ctrlWritesAreIdempotent : Obligations.CtrlWritesAreIdempotent := by
  intro s t v h
  rw [exec_wrCtrl, acceptWrite_eq] at h ⊢
  obtain rfl := Host.Outcome.next.inj h
  cases hrst : s.rst
  · simp [hrst, ctrlWrite_ctrlWrite, State.withRegs]
  · simp [hrst]

/-- Settles O36, by induction on the reads: the bytes of the later ones stand before those of the earlier. -/
theorem readsHaveNoEffect : Obligations.ReadsHaveNoEffect := by
  intro is
  induction is with
  | nil => exact fun s _ => ⟨[], rfl, by simp⟩
  | cons i is ih =>
    intro s hreads
    obtain ⟨v, hexec, hv⟩ := exec_of_isRead_eq (hreads i (by simp)) s
    obtain ⟨vs, hrun, hvs⟩ := ih { s with rdata := v ++ s.rdata } fun j hj => hreads j (by simp [hj])
    refine ⟨vs ++ v, ?_, ?_⟩
    · rw [runOps_cons_of_next is hexec, hrun, List.append_assoc]
    · rw [List.length_append, hvs, hv]
      split <;> simp

/-- Settles O46: of everything a step can do, only an accepted beat that carries a byte changes `PAY`, and only in DATA. -/
theorem payloadIsWrittenOnlyByBytesInData : Obligations.PayloadIsWrittenOnlyByBytesInData := by
  intro s t hstep hpay
  rcases step_next_cases hstep with ⟨-, rfl⟩ | ⟨p, ts, -, -, rfl⟩ | ⟨ts, w, ws, ht, hw, -, hexec⟩ |
    ⟨ts, w, as, -, -, -, hexec⟩ | ⟨ts, level, -, rfl⟩
  · exact absurd rfl hpay
  · exact absurd (edgeWithoutOperation_pay _) hpay
  · obtain ⟨hphase, b, hb⟩ := exec_pay_changes hexec hpay
    exact ⟨hphase, ts, w, ws, ht, hw, beatNoByte_of_decodeBeat hb⟩
  · obtain ⟨-, b, hb⟩ := exec_pay_changes hexec hpay
    have hport := port_decodeHost w
    rcases hb with hb | hb <;> rw [hb] at hport <;> cases hport
  · exact absurd (driveReset_pay level _) hpay

/-- Settles O47: the order of R61 is the beat, which keeps the state within the model, and then the CLEAR, whose result does
not depend on what the beat did. -/
theorem clearAtTheSameEdgeDiscardsTheBeat : Obligations.ClearAtTheSameEdgeDiscardsTheBeat := by
  intro s b bs w as ts hinv hrst hphase hstream hhost hwe haddr hclear hturns
  have hturns' : s.turns = .beat :: .host :: ts := by simpa [edgeTurns, hwe] using hturns
  obtain ⟨y, hbeat⟩ := exec_of_ready_beat (s := { s with turns := .host :: ts, stream := bs }) (port_decodeBeat b)
    ((siReady_iff _).mpr ⟨hphase, hrst⟩) (Regs.cnt_lt_of_inv hinv.1)
  have first : step s = .next _ := (stepRunsTheAcceptedBeat s _ b bs hturns' hstream hphase hrst).trans hbeat
  have second := stepRunsTheAcceptedTransaction (State.withRegs { s with turns := .host :: ts, stream := bs } y) ts w as
    rfl hhost hrst
  rw [decodeHost_of_ctrl hwe haddr, exec_wrCtrl, acceptWrite_eq, if_neg (by simp [hrst]),
    ctrlWrite_of_clear (by rw [hostWData_getLsbD w (by omega), hclear])] at second
  exact ⟨_, (run_succ_next_iff core).mpr ⟨_, first, (run_succ_next_iff core).mpr ⟨_, second, rfl⟩⟩, rfl, rfl, rfl, rfl⟩

/-- Settles O12: the turn goes to the host's port, which is ready and refuses the width. -/
theorem wideAccessIsRefused : Obligations.WideAccessIsRefused := by
  intro s ts n w as ht ha hrst hn
  exact (step_of_host_turn ht).trans (offerAccess_of_wide (s := s.passTurn) ha ((hrReady_iff _).mpr hrst) hn)

/-- Settles O58: the block's addresses in terms of their offsets, and the addresses below and above it. -/
theorem platformAddressReachesItsOffset : Obligations.PlatformAddressReachesItsOffset :=
  ⟨offsetInBlock_base_add, fun _ _ => offsetInBlock_of_outside⟩

/-- Settles O59: the access is the read of the offset's word, which the ready port runs. -/
theorem platformReadReturnsTheRegister : Obligations.PlatformReadReturnsTheRegister := by
  intro s a v h ts as hrst haccess ht ha
  obtain rfl : ⟨1, hostWord false a v⟩ = h := Option.some.inj ((platformAccess_base_add false a 1 v).symm.trans haccess)
  rw [stepRunsTheAcceptedTransaction s ts _ as ht ha hrst]
  exact (everyReadReturnsItsRegister { s with turns := ts, host := as } _ hrst (hostWE_hostWord _ _ _)).trans
    (by rw [hostAddr_hostWord])

end Sys2Proof.Machine
end

section
/-! SUPPORT. How the aligner takes a buffer's bytes (40_aligner_checksum.md R104 to R110): each byte keeps the record's
invariant and goes to its place in the frame. -/

namespace Sys2Proof.Machine

/-! ## The bytes of a buffer -/

theorem rawAt_append_left {p q : List Byte} {i : Nat} (h : i < p.length) : rawAt (p ++ q) i = rawAt p i :=
  List.getD_append p q 0x00 i h

theorem rawAt_append_length (p q : List Byte) (b : Byte) : rawAt (p ++ b :: q) p.length = b := by
  simp [rawAt]

/-- One more byte is one more addition of the checksum engine (R101, R117). -/
theorem sumMod256_append_singleton (bs : List Byte) (b : Byte) : sumMod256 (bs ++ [b]) = csumAdd (sumMod256 bs) b := by
  rw [csumAdd_eq_add]
  apply BitVec.eq_of_toNat_eq
  simp only [sumMod256, List.map_append, List.sum_append, List.map_cons, List.map_nil, List.sum_singleton,
    BitVec.toNat_add, BitVec.toNat_ofNat]
  omega

/-- A buffer that holds the payload so far holds it with the next byte stored at its end. -/
theorem read_write_append {m : Memory} (hm : m.wf) {p : List Byte} (h : ∀ i, i < p.length → m.read i = rawAt p i)
    (b : Byte) : ∀ i, i < (p ++ [b]).length → (m.write p.length b).read i = rawAt (p ++ [b]) i := by
  intro i hi
  rw [List.length_append, List.length_singleton] at hi
  by_cases hip : i = p.length
  · rw [hip, Memory.read_write_same _ _ hm, rawAt_append_length]
  · have hlt : i < p.length := by omega
    rw [Memory.read_write_other _ _ _ _ hip, h i hlt, rawAt_append_left hlt]

/-- The suffix counter counts one more byte, up to 255 (R109). -/
theorem suffix_count_succ (n : Nat) :
    (if BitVec.ofNat 8 (min n 255) = 0xFF#8 then 0xFF#8 else BitVec.ofNat 8 (min n 255) + 1) =
      BitVec.ofNat 8 (min (n + 1) 255) := by
  by_cases h : n < 255
  · have hne : BitVec.ofNat 8 n ≠ 0xFF#8 := by
      rw [ne_eq, ← BitVec.toNat_inj, BitVec.toNat_ofNat, BitVec.toNat_ofNat]
      omega
    rw [Nat.min_eq_left (by omega), Nat.min_eq_left (by omega), if_neg hne, BitVec.ofNat_add]
    rfl
  · rw [Nat.min_eq_right (by omega), Nat.min_eq_right (by omega)]
    rfl

/-! ## Where the length byte and a payload byte lead -/

/-- The three ways on from the length byte (R106). -/
theorem takeLength_phase_cases (b : Byte) (x : Regs) :
    (x.hdrbad = true ∧ (takeLength b x).phase = .drain) ∨
    (x.hdrbad = false ∧ b = 0x00 ∧ (takeLength b x).phase = .csum) ∨
    (x.hdrbad = false ∧ 0 < b.toNat ∧ (takeLength b x).phase = .data) := by
  rw [takeLength_phase]
  cases x.hdrbad with
  | true => exact .inl ⟨rfl, rfl⟩
  | false =>
    by_cases hb : b = 0x00
    · exact .inr (.inl ⟨rfl, hb, if_pos hb⟩)
    · exact .inr (.inr ⟨rfl, Nat.pos_of_ne_zero fun h => hb (BitVec.eq_of_toNat_eq h), if_neg hb⟩)

/-- The two ways on from a payload byte that is stored, and what its cell, its sum and its count are (R107). -/
theorem takeByte_data_cases {b : Byte} {x y : Regs} (hp : x.phase = .data) (hlt : x.cnt.toNat < x.lenr.toNat)
    (hy : takeByte b x = .ok y) : ∃ ph, y = { x with
        pay := x.pay.write x.cnt.toNat b, acc := csumAdd x.acc b, cnt := x.cnt + 1, phase := ph } ∧
      (x.cnt + 1).toNat = x.cnt.toNat + 1 ∧
      (ph = .csum ∧ x.cnt + 1 = x.lenr ∨ ph = .data ∧ (x.cnt + 1).toNat < x.lenr.toNat) := by
  have hcnt : (x.cnt + 1).toNat = x.cnt.toNat + 1 := by bv_omega
  rcases takeByte_cases hy with ⟨h, -⟩ | ⟨h, -⟩ | ⟨h, -⟩ | ⟨-, -, rfl⟩ | ⟨h, -⟩ | ⟨h, -⟩ | ⟨h, -⟩ | ⟨h, -⟩
  case inr.inr.inr.inl =>
    refine ⟨_, rfl, hcnt, ?_⟩
    by_cases hl : x.cnt.toNat + 1 = x.lenr.toNat
    · exact .inl ⟨if_pos hl, BitVec.eq_of_toNat_eq (hcnt.trans hl)⟩
    · exact .inr ⟨if_neg hl, by omega⟩
  all_goals cases hp.symm.trans h

/-! ## The record's invariant -/

/-- CNT counts the payload bytes up to LENR, and DATA is left with the last of them (R106, R107). -/
theorem takeByte_countsAgree {b : Byte} {x y : Regs} (h : x.countsAgree) (hy : takeByte b x = .ok y) :
    y.countsAgree := by
  obtain ⟨hle, hdata, hfull⟩ := h
  rcases takeByte_cases hy with ⟨-, rfl⟩ | ⟨-, rfl⟩ | ⟨-, rfl⟩ | ⟨hp, -⟩ | ⟨hp, rfl⟩ | ⟨hp, rfl⟩ | ⟨-, rfl⟩ | ⟨-, rfl⟩
  · simp [Regs.countsAgree]
  · simp [Regs.countsAgree, hle]
  · rcases takeLength_phase_cases b x with ⟨-, hph⟩ | ⟨-, hb, hph⟩ | ⟨-, hpos, hph⟩
    · simp [Regs.countsAgree, -takeLength_phase, hph]
    · exact ⟨Nat.zero_le _, fun h => (by cases hph.symm.trans h), fun _ => hb.symm⟩
    · simp [Regs.countsAgree, -takeLength_phase, hph, hpos]
  · obtain ⟨ph, rfl, -, ⟨rfl, hl⟩ | ⟨rfl, hl⟩⟩ := takeByte_data_cases hp (hdata hp) hy
    · exact ⟨Nat.le_of_eq (congrArg BitVec.toNat hl), by simp, fun _ => hl⟩
    · exact ⟨Nat.le_of_lt hl, fun _ => hl, by simp⟩
  · simp [Regs.countsAgree, hfull, hp]
  · simp [Regs.countsAgree, hfull, hp]
  · exact ⟨hle, hdata, hfull⟩
  · exact ⟨hle, hdata, hfull⟩

/-- HDRBAD is set with the head and decides at the length byte whether the buffer is drained (R104, R106). -/
theorem takeByte_headAgrees {b : Byte} {x y : Regs} (h : x.headAgrees) (hy : takeByte b x = .ok y) :
    y.headAgrees := by
  obtain ⟨hdrain, hframe, hbusy⟩ := h
  rcases takeByte_cases hy with ⟨-, rfl⟩ | ⟨hp, rfl⟩ | ⟨hp, rfl⟩ | ⟨hp, -, rfl⟩ | ⟨hp, rfl⟩ | ⟨hp, rfl⟩ | ⟨-, rfl⟩ | ⟨-, rfl⟩
  · simp [Regs.headAgrees]
  · have hhead := hbusy (x.busy_iff.mpr (by simp [hp]))
    simp [Regs.headAgrees, ← hhead]
  · have hhead := hbusy (x.busy_iff.mpr (by simp [hp]))
    rcases takeLength_phase_cases b x with ⟨hbad, hph⟩ | ⟨hbad, -, hph⟩ | ⟨hbad, -, hph⟩ <;>
      simp [Regs.headAgrees, -takeLength_phase, hph, ← hhead, hbad]
  · have hhead := hbusy (x.busy_iff.mpr (by simp [hp]))
    have hgood : x.hdrbad = false := hframe (.inl hp)
    by_cases hl : x.cnt.toNat + 1 = x.lenr.toNat <;> simp [Regs.headAgrees, ← hhead, hgood, hl]
  · have hhead := hbusy (x.busy_iff.mpr (by simp [hp]))
    simp [Regs.headAgrees, ← hhead, hframe (.inr (.inl hp))]
  · have hhead := hbusy (x.busy_iff.mpr (by simp [hp]))
    simp [Regs.headAgrees, ← hhead, hframe (.inr (.inr hp)), hp]
  · exact ⟨hdrain, hframe, hbusy⟩
  · exact ⟨hdrain, hframe, hbusy⟩

/-- No byte latches a result: the fields of a result are cleared with the head and stay so (R104). -/
theorem takeByte_resultAgrees {b : Byte} {x y : Regs} (h : x.resultAgrees) (hy : takeByte b x = .ok y) :
    y.resultAgrees := by
  obtain ⟨hok, herr, hbusy, hthree⟩ := h
  have cleared (hp : x.phase ≠ .idle ∧ x.phase ≠ .done) {z : Regs} (hz : z.phase ≠ .done)
      (hsame : z.errc = x.errc ∧ z.okf = x.okf ∧ z.csv = x.csv) : z.resultAgrees := by
    simp only [← x.busy_iff] at hp
    simp [Regs.resultAgrees, hz, hsame, hbusy hp]
  rcases takeByte_cases hy with ⟨-, rfl⟩ | ⟨hp, rfl⟩ | ⟨hp, rfl⟩ | ⟨hp, -, rfl⟩ | ⟨hp, rfl⟩ | ⟨hp, rfl⟩ | ⟨-, rfl⟩ | ⟨-, rfl⟩
  · simp [Regs.resultAgrees]
  · exact cleared (by simp [hp]) (by simp) ⟨rfl, rfl, rfl⟩
  · exact cleared (by simp [hp]) (by rw [takeLength_phase]; split_ifs <;> simp) ⟨rfl, rfl, rfl⟩
  · exact cleared (by simp [hp]) (by dsimp only; split_ifs <;> simp) ⟨rfl, rfl, rfl⟩
  · exact cleared (by simp [hp]) (by simp) ⟨rfl, rfl, rfl⟩
  · exact cleared (by simp [hp]) (by simp [hp]) ⟨rfl, rfl, rfl⟩
  · exact ⟨hok, herr, hbusy, hthree⟩
  · exact ⟨hok, herr, hbusy, hthree⟩

theorem takeByte_wf {b : Byte} {x y : Regs} (h : x.pay.wf) (hy : takeByte b x = .ok y) : y.pay.wf := by
  by_cases hp : x.phase = .data
  · rw [takeByte, hp] at hy
    rcases takeData_cases b x with ⟨hc, ht⟩ | ⟨-, ht⟩ <;> rw [ht] at hy
    · obtain rfl := Except.ok.inj hy
      exact Memory.wf_write b h hc
    · cases hy
  · exact (takeByte_pay_of_not_data hy hp).1 ▸ h

/-- The aligner's byte step keeps the record's invariant (R24). -/
theorem takeByte_inv {b : Byte} {x y : Regs} (h : x.inv) (hy : takeByte b x = .ok y) : y.inv := by
  obtain ⟨hcounts, hhead, hresult, hwf⟩ := h
  exact ⟨takeByte_countsAgree hcounts hy, takeByte_headAgrees hhead hy, takeByte_resultAgrees hresult hy, takeByte_wf hwf hy⟩

/-! ## The place of each byte, phase by phase -/

theorem takeHead_aligned (b : Byte) (x : Regs) : Aligned [b] (takeHead b x) := ⟨rfl, rfl, rfl⟩

theorem takeType_aligned {raw : List Byte} {x : Regs} (b : Byte) (hp : x.phase = .type) (h : Aligned raw x) :
    Aligned (raw ++ [b]) (takeType b x) := by
  simp only [Aligned, hp] at h
  obtain ⟨rfl, hacc, hsfx⟩ := h
  exact ⟨rfl, by rw [takeType_acc, hacc, ← sumMod256_append_singleton]; rfl, hsfx⟩

/-- The length byte leads to the payload, to the checksum of an empty payload, or to the drain of a bad head (R106). -/
theorem takeLength_aligned {raw : List Byte} {x : Regs} (b : Byte) (hp : x.phase = .len) (hinv : x.headAgrees)
    (h : Aligned raw x) : Aligned (raw ++ [b]) (takeLength b x) := by
  obtain ⟨-, -, hbusy⟩ := hinv
  have hhead : x.hdrbad = (x.headr != Config.startMarker) := hbusy (x.busy_iff.mpr (by simp [hp]))
  simp only [Aligned, hp] at h
  obtain ⟨rfl, hacc, hsfx⟩ := h
  have hacc' : (takeLength b x).acc = sumMod256 [x.typer, b] := by
    rw [takeLength_acc, hacc, ← sumMod256_append_singleton]
    rfl
  have noBytes : ∀ i, i < ([] : List Byte).length → x.pay.read i = rawAt [] i := fun i hi => absurd hi (Nat.not_lt_zero i)
  rcases takeLength_phase_cases b x with ⟨hbad, hph⟩ | ⟨hbad, rfl, hph⟩ | ⟨hbad, hpos, hph⟩ <;>
    simp only [Aligned, hph] <;> rw [hbad] at hhead
  · exact ⟨[], rfl, by simpa using hhead⟩
  · exact ⟨[], rfl, by simpa using hhead, rfl, hacc', noBytes, hsfx⟩
  · exact ⟨[], rfl, by simpa using hhead, rfl, hpos, hacc', noBytes, hsfx⟩

/-- A payload byte goes to cell CNT, and the last one leads to the checksum (R107). -/
theorem takeByte_data_aligned {raw : List Byte} {x y : Regs} {b : Byte} (hp : x.phase = .data) (hwf : x.pay.wf)
    (h : Aligned raw x) (hy : takeByte b x = .ok y) : Aligned (raw ++ [b]) y := by
  simp only [Aligned, hp] at h
  obtain ⟨p, rfl, hhead, hlen, hlt, hacc, hpay, hsfx⟩ := h
  have hsum : csumAdd x.acc b = sumMod256 (x.typer :: x.lenr :: (p ++ [b])) := by
    rw [hacc, ← sumMod256_append_singleton]
    rfl
  have hpay' := hlen ▸ read_write_append hwf hpay b
  have hlen' : (p ++ [b]).length = x.cnt.toNat + 1 := by rw [List.length_append, hlen, List.length_singleton]
  obtain ⟨ph, rfl, hcnt, ⟨rfl, hl⟩ | ⟨rfl, hl⟩⟩ := takeByte_data_cases hp (hlen ▸ hlt) hy
  · exact ⟨p ++ [b], rfl, hhead, by rw [hlen', ← hl, hcnt], hsum, hpay', hsfx⟩
  · exact ⟨p ++ [b], rfl, hhead, by rw [hlen', hcnt], by rw [hlen', ← hcnt]; exact hl, hsum, hpay', hsfx⟩

theorem takeCsum_aligned {raw : List Byte} {x : Regs} (b : Byte) (hp : x.phase = .csum) (h : Aligned raw x) :
    Aligned (raw ++ [b]) (takeCsum b x) := by
  simp only [Aligned, hp] at h
  obtain ⟨p, rfl, hhead, hlen, hacc, hpay, hsfx⟩ := h
  exact ⟨p, [], rfl, hhead, hlen, hacc, hpay, hsfx⟩

theorem takeSuffix_aligned {raw : List Byte} {x : Regs} (b : Byte) (hp : x.phase = .suffix) (h : Aligned raw x) :
    Aligned (raw ++ [b]) (takeSuffix x) := by
  simp only [Aligned, hp] at h
  obtain ⟨p, r, rfl, hhead, hlen, hacc, hpay, hsfx⟩ := h
  simp only [Aligned, takeSuffix_phase, hp]
  refine ⟨p, r ++ [b], by simp, hhead, hlen, hacc, hpay, ?_⟩
  rw [takeSuffix_sfx, hsfx, List.length_append]
  exact suffix_count_succ r.length

theorem drain_aligned {raw : List Byte} {x : Regs} (b : Byte) (hp : x.phase = .drain) (h : Aligned raw x) :
    Aligned (raw ++ [b]) x := by
  simp only [Aligned, hp] at h ⊢
  obtain ⟨p, rfl, hhead⟩ := h
  exact ⟨p ++ [b], rfl, hhead⟩

/-- The aligner's byte step puts the byte behind those taken before it (R104 to R110). -/
theorem takeByte_aligned {raw : List Byte} {b : Byte} {x y : Regs} (hinv : x.inv) (h : Aligned raw x)
    (hy : takeByte b x = .ok y) : Aligned (raw ++ [b]) y := by
  obtain ⟨-, hhead, -, hwf⟩ := hinv
  rcases takeByte_cases hy with ⟨hp, rfl⟩ | ⟨hp, rfl⟩ | ⟨hp, rfl⟩ | ⟨hp, -⟩ | ⟨hp, rfl⟩ | ⟨hp, rfl⟩ | ⟨hp, rfl⟩ | ⟨hp, rfl⟩
  · obtain rfl : raw = [] := by simpa [Aligned, hp] using h
    exact takeHead_aligned b x
  · exact takeType_aligned b hp h
  · exact takeLength_aligned b hp hhead h
  · exact takeByte_data_aligned hp hwf h hy
  · exact takeCsum_aligned b hp h
  · exact takeSuffix_aligned b hp h
  · exact drain_aligned b hp h
  · simp [Aligned, hp] at h

end Sys2Proof.Machine
end

section
/-! SUPPORT. What the end of a buffer latches, and the contract (40_aligner_checksum.md R120, R121): in each phase the bytes
taken so far decide what `parse` answers, and the registers read as the contract says. -/

namespace Sys2Proof.Machine

/-! ## `parse` on the bytes of each phase -/

theorem parse_of_header_cut {raw : List Byte} (h : raw.length < 3) : parse raw = .error .tooShort := if_pos h

theorem parse_of_bad_head {h t l : Byte} (p : List Byte) (hne : h ≠ Config.startMarker) :
    parse (h :: t :: l :: p) = .error .badStartMarker :=
  (if_neg (by simp [Config.hdrLen])).trans (if_pos hne)

/-- A frame whose payload, or whose checksum, is missing (R120). -/
theorem parse_of_frame_cut {t l : Byte} {p : List Byte} (hle : p.length ≤ l.toNat) :
    parse (Config.startMarker :: t :: l :: p) = .error .tooShort := by
  refine (if_neg (by simp [Config.hdrLen])).trans ((if_neg (not_not.mpr rfl)).trans (if_pos ?_))
  simp only [rawAt, Config.hdrLen, List.length_cons, List.getD_cons_succ, List.getD_cons_zero]
  omega

/-- The frame that `parse` finds in a start marker, a type, a length, as many payload bytes, a checksum and a suffix. -/
def frameOf (t l : Byte) (p : List Byte) (c : Byte) : ParsedFrame where
  head := Config.startMarker
  typeCode := t
  length := l
  data := p
  checksum := c
  computedChecksum := sumMod256 (t :: l :: p)
  checksumValid := sumMod256 (t :: l :: p) == c
  kind := if t = Config.tagType then .tagData else .unknown t

theorem parse_of_whole_frame {t l c : Byte} {p r : List Byte} (hlen : p.length = l.toNat) :
    parse (Config.startMarker :: t :: l :: (p ++ c :: r)) = .ok (frameOf t l p c) := by
  have hdata : (p ++ c :: r).take l.toNat = p := by rw [← hlen, List.take_left]
  have hcsum : rawAt (Config.startMarker :: t :: l :: (p ++ c :: r)) (3 + l.toNat) = c := by
    rw [← hlen, Nat.add_comm]
    exact rawAt_append_length p r c
  refine (if_neg (by simp [Config.hdrLen])).trans ((if_neg (not_not.mpr rfl)).trans ((if_neg ?_).trans ?_))
  · simp only [rawAt, Config.hdrLen, List.length_cons, List.length_append, List.getD_cons_succ, List.getD_cons_zero]
    omega
  · change Except.ok _ = _
    simp only [rawAt, Config.hdrLen, List.drop_succ_cons, List.drop_zero, List.getD_cons_succ, List.getD_cons_zero] at hcsum ⊢
    simp only [hdata, hcsum, frameOf]

/-! ## The latched result reads as the contract says -/

/-- The code ERRC latches for an error (R36, R103). -/
def DecodeError.code : DecodeError → BitVec 2
  | .tooShort => 1
  | .badStartMarker => 2

/-- A latched error reads as the contract of R121 gives it. -/
theorem meetsContract_of_error {raw : List Byte} {x : Regs} {e : DecodeError} (hparse : parse raw = .error e)
    (hdone : x.phase = .done) (hok : x.okf = false) (hcode : x.errc = e.code) : MeetsContract raw x := by
  have hv : x.visible = false := by simp [Regs.visible, hok]
  refine ⟨hdone, fun a => ?_⟩
  rw [Regs.readAt]
  generalize hostRegAt a = r
  by_cases hs : r = .status
  · subst hs
    refine (Regs.statusValue_of_done hdone).trans ?_
    rw [hok, if_neg Bool.false_ne_true]
    simp only [contractValue, hparse]
    exact BitVec.or_comm _ _
  by_cases he : r = .errcode
  · subst he
    refine (if_pos hdone).trans ?_
    rw [hcode]
    cases e <;> simp only [contractValue, hparse] <;> rfl
  · rw [Regs.readReg_of_not_visible hv r hs he]
    cases r <;> simp only [contractValue, hparse] <;> contradiction

/-- The result of a whole frame reads as the contract of R121 gives it. -/
theorem completeOk_meetsContract {raw : List Byte} {x : Regs} (hp : x.phase = .suffix) (h : Aligned raw x) :
    MeetsContract raw (completeOk x) := by
  simp only [Aligned, hp] at h
  obtain ⟨p, r, rfl, hhead, hlen, hacc, hpay, hsfx⟩ := h
  have hparse := hhead ▸ parse_of_whole_frame (t := x.typer) (c := x.csrx) (r := r) hlen
  refine ⟨rfl, fun a => ?_⟩
  rw [Regs.readAt]
  cases hostRegAt a <;> simp only [contractValue, hparse, frameOf]
  case ctrl | reserved | errcode => rfl
  case head => exact hhead
  case type | length | csumRx => rfl
  case csumCalc => exact hacc
  case status =>
    refine (Regs.statusValue_of_done rfl).trans ?_
    rw [completeOk_okf, if_pos rfl, completeOk_csv, completeOk_berr, hacc]
    exact BitVec.or_comm _ _
  case kind =>
    refine (Regs.readKind_eq _).trans ?_
    by_cases ht : x.typer = Config.tagType
    · rw [if_pos ⟨rfl, rfl, ht⟩, if_pos (if_pos ht)]
      rfl
    · rw [if_neg fun h => ht h.2.2, if_neg (by rw [if_neg ht]; exact Kind.noConfusion)]
      rfl
  case suffixCnt =>
    refine hsfx.trans ?_
    simp only [suffixCount, List.length_cons, List.length_append, hlen]
    congr 2
    omega
  case payload i =>
    refine (Regs.readPayload_eq i _).trans (if_ctx_congr (by simp) (fun hi => ?_) fun _ => rfl)
    exact hpay i.toNat (hlen ▸ hi)

/-- In every phase the end of the buffer latches a result that reads as the contract says (R102, R121). -/
theorem endOfBuffer_meetsContract {raw : List Byte} {x : Regs} (h : Aligned raw x) : MeetsContract raw (endOfBuffer x) := by
  have short (hparse : parse raw = .error .tooShort) : MeetsContract raw (raiseTooShort x) :=
    meetsContract_of_error hparse rfl rfl rfl
  unfold endOfBuffer
  cases hp : x.phase <;> dsimp only
  case suffix => exact completeOk_meetsContract hp h
  all_goals simp only [Aligned, hp] at h
  case idle => exact short (parse_of_header_cut (by simp [h]))
  case type | len => exact short (parse_of_header_cut (by simp [h]))
  case data =>
    obtain ⟨p, rfl, hhead, -, hlt, -⟩ := h
    exact short (hhead ▸ parse_of_frame_cut (Nat.le_of_lt hlt))
  case csum =>
    obtain ⟨p, rfl, hhead, hlen, -⟩ := h
    exact short (hhead ▸ parse_of_frame_cut (Nat.le_of_eq hlen))
  case drain =>
    obtain ⟨p, rfl, hhead⟩ := h
    exact meetsContract_of_error (parse_of_bad_head p hhead) rfl rfl rfl

end Sys2Proof.Machine
end

section
/-! SUPPORT. The delivery of a buffer (40_aligner_checksum.md R121) and its interleaving with the host's accesses (20_memory.md
R60). A state is followed by the bytes taken so far and the bytes still to come: every turn moves bytes from the second list to
the first, and the beat that ends the buffer leaves the contract. -/

namespace Sys2Proof.Machine

/-! ## The operations that deliver a buffer -/

/-- What the next of the operations that deliver a buffer can be: a byte, the last beat, or an operation that adds no byte. -/
theorem delivered_cons_cases {i : Instr} {is : List Instr} {more : List Byte} (h : delivered (i :: is) = some more) :
    (∃ b more', i = .push b ∧ delivered is = some more' ∧ more = b :: more') ∨
    (∃ b, i = .pushl b ∧ is = [] ∧ more = [b]) ∨ (∃ d, i = .eob d ∧ is = [] ∧ more = []) ∨
    ((i.port = .host ∧ i.isCtrlAction = false ∨ i.isReserved = true) ∧ delivered is = some more) := by
  unfold delivered at h
  split at h
  case h_1 heq => cases heq
  case h_2 b heq =>
    obtain ⟨rfl, rfl⟩ := List.cons.inj heq
    exact .inr (.inl ⟨b, rfl, rfl, (Option.some.inj h).symm⟩)
  case h_3 d heq =>
    obtain ⟨rfl, rfl⟩ := List.cons.inj heq
    exact .inr (.inr (.inl ⟨d, rfl, rfl, (Option.some.inj h).symm⟩))
  case h_4 b js heq =>
    obtain ⟨rfl, rfl⟩ := List.cons.inj heq
    obtain ⟨more', hmore', rfl⟩ := Option.map_eq_some_iff.mp h
    exact .inl ⟨b, more', rfl, hmore', rfl⟩
  case h_5 j js _ _ _ heq =>
    obtain ⟨rfl, rfl⟩ := List.cons.inj heq
    split at h
    · exact .inr (.inr (.inr ⟨‹_›, h⟩))
    · cases h

/-- A host operation without CLEAR or ACK leaves the record as it is (R21, R57). -/
theorem exec_host_keeps_record {i : Instr} (s : State) (hport : i.port = .host) (hctrl : i.isCtrlAction = false) :
    ∃ t, exec i s = .next t ∧ t.x = s.x := by
  cases hread : i.isRead
  case true =>
    obtain ⟨vs, hexec, -⟩ := exec_of_isRead_eq hread s
    exact ⟨_, hexec, rfl⟩
  case false =>
    cases i with
    | wrIgn a d => exact ⟨s, exec_wrIgn_eq a d s, rfl⟩
    | wrCtrl v =>
      obtain ⟨hclear, hack⟩ := Bool.or_eq_false_iff.mp hctrl
      have hkeep : ctrlWrite v s.x = s.x := by simp [ctrlWrite, hclear, hack]
      refine ⟨_, (exec_wrCtrl v s).trans (acceptWrite_eq _ s), ?_⟩
      split
      · rfl
      · exact hkeep
    | push | beatRsvd | pushl | eob => cases hport
    | _ => cases hread

/-- The state of a buffer in progress: the bytes `raw` are taken and the buffer goes on. -/
structure Receiving (raw : List Byte) (s : State) : Prop where
  released : s.rst = false
  inv : s.x.inv
  aligned : Aligned raw s.x

theorem Aligned.phase_ne_done {raw : List Byte} {x : Regs} (h : Aligned raw x) : x.phase ≠ .done := by
  intro hp
  simp [Aligned, hp] at h

theorem Receiving.ready {raw : List Byte} {s : State} (h : Receiving raw s) : s.siReady = true :=
  (siReady_iff s).mpr ⟨h.aligned.phase_ne_done, h.released⟩

theorem receiving_nil {s : State} (hinv : s.inv) (hrst : s.rst = false) (hp : s.x.phase = .idle) : Receiving [] s :=
  ⟨hrst, hinv.1, by simp [Aligned, hp]⟩

/-- The byte of a beat is taken, whether or not the beat ends the buffer. -/
theorem Receiving.takes_byte {raw : List Byte} {s : State} (h : Receiving raw s) (b : Byte) :
    ∃ y, takeByte b s.x = .ok y ∧ y.inv ∧ Aligned (raw ++ [b]) y := by
  obtain ⟨y, hy⟩ := takeByte_ok b s.x (Regs.cnt_lt_of_inv h.inv)
  exact ⟨y, hy, takeByte_inv h.inv hy, takeByte_aligned h.inv h.aligned hy⟩

/-- The next of the operations that deliver a buffer ends it, or takes some of the bytes to come. -/
theorem exec_of_delivered {raw more : List Byte} {i : Instr} {is : List Instr} {s : State} (h : Receiving raw s)
    (hd : delivered (i :: is) = some more) :
    ∃ t, exec i s = .next t ∧ (is = [] ∧ MeetsContract (raw ++ more) t.x ∨
      ∃ raw' more', Receiving raw' t ∧ delivered is = some more' ∧ raw' ++ more' = raw ++ more) := by
  rcases delivered_cons_cases hd with ⟨b, more', rfl, hd', rfl⟩ | ⟨b, rfl, rfl, rfl⟩ | ⟨d, rfl, rfl, rfl⟩ |
    ⟨⟨hport, hctrl⟩ | hreserved, hd'⟩
  · obtain ⟨y, hy, hinv, haligned⟩ := h.takes_byte b
    exact ⟨_, acceptBeat_ready h.ready hy, .inr ⟨raw ++ [b], more', ⟨h.released, hinv, haligned⟩, hd', by simp⟩⟩
  · obtain ⟨y, hy, -, haligned⟩ := h.takes_byte b
    exact ⟨s.withRegs (endOfBuffer y), (exec_pushl b s).trans (acceptBeat_ready h.ready (by rw [hy]; rfl)),
      .inl ⟨rfl, endOfBuffer_meetsContract haligned⟩⟩
  · refine ⟨s.withRegs (endOfBuffer s.x), (exec_eob d s).trans (acceptBeat_ready h.ready rfl), .inl ⟨rfl, ?_⟩⟩
    rw [List.append_nil]
    exact endOfBuffer_meetsContract h.aligned
  · obtain ⟨t, hexec, hx⟩ := exec_host_keeps_record s hport hctrl
    obtain ⟨hrst, -⟩ := exec_keeps_agents hexec
    exact ⟨t, hexec, .inr ⟨raw, more, ⟨hrst.trans h.released, hx ▸ h.inv, hx ▸ h.aligned⟩, hd', rfl⟩⟩
  · cases i with
    | beatRsvd d =>
      exact ⟨s.withRegs (markReserved s.x), (exec_beatRsvd d s).trans (acceptBeat_ready h.ready rfl),
        .inr ⟨raw, more, ⟨h.released, h.inv, h.aligned⟩, hd', rfl⟩⟩
    | _ => cases hreserved

/-! ## The turns of both ports -/

/-- The transport is in the middle of a buffer: the beats `ws` deliver its bytes to come, and the host issues one-byte
accesses that are no CLEAR or ACK. -/
structure Delivering (rest ws : List BeatWord) (raw more : List Byte) (s : State) : Prop where
  receiving : Receiving raw s
  offered : s.stream = ws ++ rest
  delivers : delivered (ws.map decodeBeat) = some more
  harmless : ∀ a ∈ s.host, a.bytes = 1 ∧ (decodeHost a.word).isCtrlAction = false

/-- Some turns of the two ports, the transport's being `n` and the last one among them. -/
structure EndsWithBeat (n : Nat) (ts : List Turn) : Prop where
  ports : ∀ p ∈ ts, p = .beat ∨ p = .host
  last : ts.getLast? = some .beat
  count : ts.count .beat = n

theorem EndsWithBeat.tail_of_host {n : Nat} {ts : List Turn} (h : EndsWithBeat n (.host :: ts)) : EndsWithBeat n ts := by
  have hlast := h.last
  have hcount := h.count
  cases ts with
  | nil => cases hlast
  | cons p ts => exact ⟨fun q hq => h.ports q (by simp [hq]), by simpa using hlast, by simpa using hcount⟩

/-- After a beat that is not the last one the turns still end with a beat. -/
theorem EndsWithBeat.tail_of_beat {n : Nat} {ts : List Turn} (h : EndsWithBeat (n + 1) (.beat :: ts)) (hn : 0 < n) :
    EndsWithBeat n ts := by
  have hlast := h.last
  have hcount : ts.count .beat = n := by have := h.count; rw [List.count_cons_self] at this; omega
  cases ts with
  | nil =>
    rw [List.count_nil] at hcount
    omega
  | cons p ts => exact ⟨fun q hq => h.ports q (by simp [hq]), by simpa using hlast, hcount⟩

theorem EndsWithBeat.tail_eq_nil {ts : List Turn} (h : EndsWithBeat 1 (.beat :: ts)) : ts = [] := by
  have hlast := h.last
  have hcount := h.count
  cases ts with
  | nil => rfl
  | cons p ts =>
    have hmem : Turn.beat ∈ p :: ts := List.mem_of_getLast? (by simpa using hlast)
    have := List.count_pos_iff.mpr hmem
    rw [List.count_cons_self] at hcount
    omega

/-- The transport's turn takes the next beat: it ends the buffer, or the delivery goes on. -/
theorem Delivering.step_of_beat {rest ws : List BeatWord} {raw more : List Byte} {s : State} {ts : List Turn}
    (h : Delivering rest ws raw more s) (ht : s.turns = .beat :: ts) :
    ∃ w ws' t, ws = w :: ws' ∧ step s = .next t ∧ t.turns = ts ∧
      (ws' = [] ∧ t.stream = rest ∧ MeetsContract (raw ++ more) t.x ∨
        ∃ raw' more', Delivering rest ws' raw' more' t ∧ raw' ++ more' = raw ++ more) := by
  obtain ⟨hreceiving, hoffered, hdelivers, hharmless⟩ := h
  cases ws with
  | nil => cases hdelivers
  | cons w ws' =>
    have hstep := stepRunsTheAcceptedBeat s ts w (ws' ++ rest) ht hoffered hreceiving.aligned.phase_ne_done
      hreceiving.released
    have hreceiving' : Receiving raw { s with turns := ts, stream := ws' ++ rest } :=
      ⟨hreceiving.released, hreceiving.inv, hreceiving.aligned⟩
    obtain ⟨t, hexec, hcases⟩ := exec_of_delivered hreceiving' hdelivers
    obtain ⟨-, hstream, hhost, hturns⟩ := exec_keeps_agents hexec
    refine ⟨w, ws', t, rfl, hstep.trans hexec, hturns, ?_⟩
    rcases hcases with ⟨hnil, hcontract⟩ | ⟨raw', more', hr, hd, heq⟩
    · obtain rfl := List.map_eq_nil_iff.mp hnil
      exact .inl ⟨rfl, hstream, hcontract⟩
    · exact .inr ⟨raw', more', ⟨hr, hstream, hd, fun a ha => hharmless a (hhost ▸ ha)⟩, heq⟩

/-- The host's turn leaves the delivery where it is (R60). -/
theorem Delivering.step_of_host {rest ws : List BeatWord} {raw more : List Byte} {s : State} {ts : List Turn}
    (h : Delivering rest ws raw more s) (ht : s.turns = .host :: ts) :
    ∃ t, step s = .next t ∧ t.turns = ts ∧ Delivering rest ws raw more t := by
  obtain ⟨⟨hrst, hinv, haligned⟩, hoffered, hdelivers, hharmless⟩ := h
  cases hhost : s.host with
  | nil =>
    refine ⟨s.passTurn, ?_, by simp [ht], ⟨hrst, hinv, haligned⟩, hoffered, hdelivers, hharmless⟩
    rw [step_of_host_turn ht, offerAccess_of_none (s := s.passTurn) (.inl hhost), edgeWithoutOperation, if_neg (by simp [hrst])]
  | cons a as =>
    obtain ⟨n, w⟩ := a
    obtain ⟨rfl, hctrl⟩ := hharmless ⟨n, w⟩ (by simp [hhost])
    obtain ⟨t, hexec, hx⟩ := exec_host_keeps_record { s with turns := ts, host := as } (port_decodeHost w) hctrl
    obtain ⟨hrst', hstream', (hhost' : t.host = as), hturns'⟩ := exec_keeps_agents hexec
    refine ⟨t, (stepRunsTheAcceptedTransaction s ts w as ht hhost hrst).trans hexec, hturns',
      ⟨hrst'.trans hrst, hx ▸ hinv, hx ▸ haligned⟩, hstream'.trans hoffered, hdelivers, fun a ha => ?_⟩
    rw [hhost'] at ha
    exact hharmless a (hhost ▸ List.mem_cons_of_mem _ ha)

/-- A run of `n` steps ends with the contract of a buffer, the beats `rest` still offered, and no turn left. -/
def RunsToContract (rest : List BeatWord) (bytes : List Byte) (n : Nat) (s : State) : Prop :=
  ∃ t, core.run n s = .next t ∧ MeetsContract bytes t.x ∧ t.stream = rest ∧ t.turns = []

theorem RunsToContract.of_step {rest : List BeatWord} {bytes : List Byte} {n : Nat} {s t : State} (hstep : step s = .next t)
    (h : RunsToContract rest bytes n t) : RunsToContract rest bytes (n + 1) s := by
  obtain ⟨u, hrun, hcontract⟩ := h
  exact ⟨u, (run_succ_next_iff core).mpr ⟨t, hstep, hrun⟩, hcontract⟩

/-- Any interleaving of the turns up to the beat that ends the buffer leaves the contract, by induction on the turns. -/
theorem Delivering.runsToContract {rest : List BeatWord} (ts : List Turn) {ws : List BeatWord} {raw more : List Byte}
    {s : State} (h : Delivering rest ws raw more s) (ht : s.turns = ts) (hends : EndsWithBeat ws.length ts) :
    RunsToContract rest (raw ++ more) ts.length s := by
  induction ts generalizing ws raw more s with
  | nil => cases hends.last
  | cons p ts ih =>
    rcases hends.ports p (by simp) with rfl | rfl
    · obtain ⟨w, ws', t, rfl, hstep, hturns, ⟨rfl, hstream, hcontract⟩ | ⟨raw', more', hd, heq⟩⟩ := h.step_of_beat ht
      · obtain rfl := hends.tail_eq_nil
        exact .of_step hstep ⟨t, rfl, hcontract, hstream, hturns⟩
      · have hpos : 0 < ws'.length := by
          cases ws' with
          | nil => cases hd.delivers
          | cons => exact Nat.succ_pos _
        rw [← heq]
        exact .of_step hstep (ih hd hturns (hends.tail_of_beat hpos))
    · obtain ⟨t, hstep, hturns, hd⟩ := h.step_of_host ht
      exact .of_step hstep (ih hd hturns hends.tail_of_host)

/-! ## The statement -/

/-- Settles O55: the buffer starts in IDLE with no byte taken, and the turns end with the beat that ends it. -/
theorem contractHoldsUnderEveryInterleaving : Obligations.ContractHoldsUnderEveryInterleaving := by
  intro s ws rest raw hinv hrst hidle hstream hdelivered hhost hports hlast hcount
  have delivering : Delivering rest ws [] raw s := ⟨receiving_nil hinv hrst hidle, hstream, hdelivered, hhost⟩
  exact delivering.runsToContract s.turns rfl ⟨hports, hlast, hcount⟩

end Sys2Proof.Machine
end

section
/-! SUPPORT. The decoder and the encoder of the two ports (30_encoding.md R72 to R75): a word decodes to the operation its
fields say, the encoder undoes the decoder and the decoder the encoder, and the row of the opcode map that the decoder's
operation belongs to is the one R75 picks. -/

namespace Sys2Proof.Machine

/-! ## An offset as ADDR[8] and ADDR[7:0] -/

/-- The bits of an offset made of ADDR[8] and ADDR[7:0]. -/
theorem offset_append_getLsbD (window : Bool) (i : Byte) (k : Nat) :
    ((BitVec.ofBool window ++ i : BitVec (1 + 8)) : Offset).getLsbD k =
      if k < 8 then i.getLsbD k else (BitVec.ofBool window).getLsbD (k - 8) := BitVec.getLsbD_append

theorem offset_append_addr8 (window : Bool) (i : Byte) :
    ((BitVec.ofBool window ++ i : BitVec (1 + 8)) : Offset).getLsbD 8 = window := by
  rw [offset_append_getLsbD]
  cases window <;> rfl

theorem offset_append_low (window : Bool) (i : Byte) :
    ((BitVec.ofBool window ++ i : BitVec (1 + 8)) : Offset).extractLsb' 0 8 = i := by
  apply BitVec.eq_of_getLsbD_eq
  intro k hk
  simp only [BitVec.getLsbD_extractLsb', hk, decide_true, Bool.true_and, Nat.zero_add]
  rw [offset_append_getLsbD, if_pos hk]

/-- An offset is made of its ADDR[8] and its ADDR[7:0]. -/
theorem offset_fields (a : Offset) : (BitVec.ofBool (a.getLsbD 8) ++ a.extractLsb' 0 8 : BitVec (1 + 8)) = a := by
  apply BitVec.eq_of_getLsbD_eq
  intro k hk
  rw [offset_append_getLsbD]
  split
  · simp [*]
  · rw [show k = 8 by omega, BitVec.getLsbD_ofBool]
    simp

theorem offset_of_high {a : Offset} (h : a.getLsbD 8 = true) : (1#1 ++ a.extractLsb' 0 8 : BitVec (1 + 8)) = a := by
  have e := offset_fields a
  rwa [h] at e

theorem offset_of_low {a : Offset} (h : a.getLsbD 8 = false) : (0#1 ++ a.extractLsb' 0 8 : BitVec (1 + 8)) = a := by
  have e := offset_fields a
  rwa [h] at e

/-- With ADDR[8] = 1 an offset lies in the payload window, with index ADDR[7:0] (R41). -/
theorem hostRegAt_window (i : Byte) : hostRegAt (1#1 ++ i) = .payload i :=
  (hostRegAt_payload_iff _ i).mpr ⟨offset_append_addr8 true i, (offset_append_low true i).symm⟩

/-- With ADDR[8] = 0 an offset is reserved from 0x00A on (R40). -/
theorem hostRegAt_low_reserved_iff (a : Byte) : hostRegAt (0#1 ++ a) = .reserved ↔ 0x0A#8 ≤ a := by
  revert a; decide

/-! ## Decoding a word made of its fields -/

/-- LAST and NOBYTE choose the kind of beat (R72). -/
theorem decodeBeat_beatWord (l n : Bool) (b : Byte) :
    decodeBeat (beatWord l n b) =
      if n then (if l then .eob b else .beatRsvd b) else if l then .pushl b else .push b := by
  rw [decodeBeat, beatLast_beatWord, beatNoByte_beatWord, beatData_beatWord]
  cases l <;> cases n <;> rfl

/-- A read word decodes to the operation of the register at its offset (R30, R75). -/
theorem decodeHost_readWord {a : Offset} {r : HostReg} (h : hostRegAt a = r) (d : Byte) :
    decodeHost (hostWord false a d) = readOp r (a.extractLsb' 0 8) d := by
  rw [decodeHost_of_read (hostWE_hostWord ..), hostAddr_hostWord, hostWData_hostWord, decodeRead_eq_readOp, h]

theorem decodeHost_ctrlWord (v : Byte) : decodeHost (hostWord true 0x000#9 v) = .wrCtrl v := by
  rw [decodeHost_of_ctrl (hostWE_hostWord ..) (hostAddr_hostWord ..), hostWData_hostWord]

theorem decodeHost_writeWord {a : Offset} (h : a ≠ 0x000#9) (d : Byte) : decodeHost (hostWord true a d) = .wrIgn a d := by
  rw [decodeHost_of_write (hostWE_hostWord ..) (by rwa [hostAddr_hostWord]), hostAddr_hostWord, hostWData_hostWord]

/-- Settles O1: each operation's word is made of its fields, which the decoder reads back; only the reserved read and the
ignored write need their operand's range. -/
theorem decodeOfEncodeIsTheOperation : Obligations.DecodeOfEncodeIsTheOperation := by
  intro i hwf
  cases i with
  | push b => exact decodeBeat_beatWord false false b
  | beatRsvd d => exact decodeBeat_beatWord false true d
  | pushl b => exact decodeBeat_beatWord true false b
  | eob d => exact decodeBeat_beatWord true true d
  | wrCtrl v => exact decodeHost_ctrlWord v
  | wrIgn a d => exact decodeHost_writeWord (bne_iff_ne.mp hwf) d
  | rdCtrl d => exact decodeHost_readWord (r := .ctrl) rfl d
  | rdStatus d => exact decodeHost_readWord (r := .status) rfl d
  | rdErrcode d => exact decodeHost_readWord (r := .errcode) rfl d
  | rdHead d => exact decodeHost_readWord (r := .head) rfl d
  | rdType d => exact decodeHost_readWord (r := .type) rfl d
  | rdLength d => exact decodeHost_readWord (r := .length) rfl d
  | rdCsumRx d => exact decodeHost_readWord (r := .csumRx) rfl d
  | rdCsumCalc d => exact decodeHost_readWord (r := .csumCalc) rfl d
  | rdKind d => exact decodeHost_readWord (r := .kind) rfl d
  | rdSuffixCnt d => exact decodeHost_readWord (r := .suffixCnt) rfl d
  | rdPayload i d => exact decodeHost_readWord (hostRegAt_window i) d
  | rdRsvd a d =>
    have reserved : hostRegAt (0#1 ++ a) = .reserved := (hostRegAt_low_reserved_iff a).mpr (of_decide_eq_true hwf)
    exact (decodeHost_readWord reserved d).trans (congrArg (Instr.rdRsvd · d) (offset_append_low false a))

/-- Settles O4: the decoder evaluated on the spec's words. -/
theorem sampleWordsDecodeAsTheSpecSays : Obligations.SampleWordsDecodeAsTheSpecSays := by
  unfold Obligations.SampleWordsDecodeAsTheSpecSays
  decide

/-! ## Encoding a decoded word -/

theorem encode_decodeBeat (w : BeatWord) : encode (decodeBeat w) = .beat w := by
  rw [← beatWord_fields w, decodeBeat_beatWord]
  cases beatLast w <;> cases beatNoByte w <;> rfl

/-- A chosen operation has a word when each of the two has it under its condition. -/
theorem encode_ite {c : Prop} [Decidable c] {i j : Instr} {w : PortWord} (hi : c → encode i = w)
    (hj : ¬ c → encode j = w) : encode (if c then i else j) = w := by
  by_cases h : c
  · rw [if_pos h, hi h]
  · rw [if_neg h, hj h]

/-- The word of the operation a read decodes to: each register row fixes ADDR, and the two others keep ADDR[7:0]. -/
theorem encode_decodeRead (a : Offset) (d : Byte) : encode (decodeRead a d) = .host (hostWord false a d) := by
  refine encode_ite (fun high => by rw [encode, offset_of_high high]) fun notHigh => ?_
  iterate 10 refine encode_ite (fun h => h ▸ rfl) fun _ => ?_
  rw [encode, offset_of_low (Bool.eq_false_of_not_eq_true notHigh)]

theorem encode_decodeHost (w : HostWord) : encode (decodeHost w) = .host w := by
  rw [← hostWord_fields w]
  cases hostWE w with
  | false =>
    rw [decodeHost_of_read (hostWE_hostWord ..), hostAddr_hostWord, hostWData_hostWord]
    exact encode_decodeRead _ _
  | true =>
    by_cases h : hostAddr w = 0x000#9
    · rw [h, decodeHost_ctrlWord]
      rfl
    · rw [decodeHost_writeWord h]
      rfl

/-! ## A decoded word is a well-formed operation -/

theorem decodeBeat_wf (w : BeatWord) : (decodeBeat w).wf = true := by
  unfold decodeBeat
  cases beatLast w <;> cases beatNoByte w <;> rfl

theorem decodeRead_wf (a : Offset) (d : Byte) : (decodeRead a d).wf = true := by
  rw [decodeRead_eq_readOp]
  cases h : hostRegAt a with
  | reserved =>
    have low : a.getLsbD 8 = false := by
      refine Bool.eq_false_of_not_eq_true fun high => ?_
      cases h.symm.trans ((hostRegAt_payload_iff a _).mpr ⟨high, rfl⟩)
    exact decide_eq_true ((hostRegAt_low_reserved_iff _).mp ((congrArg hostRegAt (offset_of_low low)).trans h))
  | _ => rfl

theorem decodeHost_wf (w : HostWord) : (decodeHost w).wf = true := by
  unfold decodeHost
  split
  · split
    · rfl
    · exact bne_iff_ne.mpr ‹_›
  · exact decodeRead_wf _ _

/-! ## The rows of the opcode map (R75) -/

/-- The word of every well-formed operation matches the operation's row. -/
theorem encodedWord_matchesRow : ∀ i : Instr, Laws.RowMatch.Statement i
  | .push b => Laws.RowMatch.push b
  | .beatRsvd d => Laws.RowMatch.beatRsvd d
  | .pushl b => Laws.RowMatch.pushl b
  | .eob d => Laws.RowMatch.eob d
  | .wrCtrl v => Laws.RowMatch.wrCtrl v
  | .wrIgn a d => Laws.RowMatch.wrIgn a d
  | .rdCtrl d => Laws.RowMatch.rdCtrl d
  | .rdStatus d => Laws.RowMatch.rdStatus d
  | .rdErrcode d => Laws.RowMatch.rdErrcode d
  | .rdHead d => Laws.RowMatch.rdHead d
  | .rdType d => Laws.RowMatch.rdType d
  | .rdLength d => Laws.RowMatch.rdLength d
  | .rdCsumRx d => Laws.RowMatch.rdCsumRx d
  | .rdCsumCalc d => Laws.RowMatch.rdCsumCalc d
  | .rdKind d => Laws.RowMatch.rdKind d
  | .rdSuffixCnt d => Laws.RowMatch.rdSuffixCnt d
  | .rdPayload i d => Laws.RowMatch.rdPayload i d
  | .rdRsvd a d => Laws.RowMatch.rdRsvd a d

theorem decodeBeat_matchesRow (w : BeatWord) : Laws.matchesRow beatRows (decodeBeat w).mnemonic w := by
  have h := encodedWord_matchesRow (decodeBeat w) (decodeBeat_wf w)
  rw [encode_decodeBeat] at h
  exact h

theorem decodeHost_matchesRow (w : HostWord) : Laws.matchesRow hostRows (decodeHost w).mnemonic w := by
  have h := encodedWord_matchesRow (decodeHost w) (decodeHost_wf w)
  rw [encode_decodeHost] at h
  exact h

theorem matchesWord_iff {n : Nat} (r : Row n) (w : BitVec n) :
    r.matchesWord w = true ↔ w &&& r.mask = r.pattern := beq_iff_eq

/-- Two rows that match one word agree on the bits that both look at. -/
theorem patterns_agree_of_matchesWord {n : Nat} {q r : Row n} {w : BitVec n} (hq : q.matchesWord w = true)
    (hr : r.matchesWord w = true) : q.pattern &&& r.mask = r.pattern &&& q.mask := by
  rw [matchesWord_iff] at hq hr
  rw [← hq, ← hr, BitVec.and_assoc, BitVec.and_assoc, BitVec.and_comm q.mask]

theorem beatRows_eq_of_agree :
    ∀ q ∈ beatRows, ∀ r ∈ beatRows, q.pattern &&& r.mask = r.pattern &&& q.mask → q = r := by decide

theorem hostRows_eq_of_mnemonic : ∀ q ∈ hostRows, ∀ r ∈ hostRows, q.mnemonic = r.mnemonic → q = r := by decide

/-- A row that looks at only a part of WE and ADDR loses to every other row that agrees with it. -/
theorem hostRows_partial_of_agree :
    ∀ q ∈ hostRows, ∀ r ∈ hostRows, q.mask ≠ 0x3FF00 → q.pattern &&& r.mask = r.pattern &&& q.mask →
      q = r ∨ q.maskBits < r.maskBits := by decide

theorem decodeHost_pattern_mnemonic :
    ∀ q ∈ hostRows, q.mask = 0x3FF00 → (decodeHost q.pattern).mnemonic = q.mnemonic := by decide

/-- WDATA does not choose the row. -/
theorem decodeHost_mnemonic_of_fields {v w : HostWord} (hwe : hostWE v = hostWE w) (ha : hostAddr v = hostAddr w) :
    (decodeHost v).mnemonic = (decodeHost w).mnemonic := by
  have read (r : HostReg) (a d e : Byte) : (readOp r a d).mnemonic = (readOp r a e).mnemonic := by cases r <;> rfl
  unfold decodeHost
  rw [hwe, ha]
  split
  · split <;> rfl
  · rw [decodeRead_eq_readOp, decodeRead_eq_readOp]
    exact read _ _ _ _

/-- A row that looks at all of WE and ADDR matches the words of its own operation only. -/
theorem mnemonic_of_matches_registerRow {q : Row 18} {w : HostWord} (hq : q ∈ hostRows) (hmask : q.mask = 0x3FF00)
    (h : q.matchesWord w = true) : q.mnemonic = (decodeHost w).mnemonic := by
  have hwe : hostWE (w &&& 0x3FF00) = hostWE w := by simp [hostWE]
  have ha : hostAddr (w &&& 0x3FF00) = hostAddr w := by
    rw [hostAddr, BitVec.extractLsb'_and]
    exact BitVec.and_allOnes
  calc q.mnemonic = (decodeHost q.pattern).mnemonic := (decodeHost_pattern_mnemonic q hq hmask).symm
    _ = (decodeHost (w &&& 0x3FF00)).mnemonic := by rw [← (matchesWord_iff q w).mp h, hmask]
    _ = (decodeHost w).mnemonic := decodeHost_mnemonic_of_fields hwe ha

/-- Settles O3: the encoder's row for the decoded operation matches the word. Of two beat rows only one can match a word; a
host row that looks at all of WE and ADDR is the decoded operation's own, and every other host row loses. -/
theorem decoderPicksTheRowWithMostMaskBits : Obligations.DecoderPicksTheRowWithMostMaskBits := by
  refine ⟨fun w => ?_, fun w => ?_⟩
  · obtain ⟨r, hr, hmn, hmatch⟩ := decodeBeat_matchesRow w
    exact ⟨r, hr, hmatch, hmn, fun q hq h =>
      .inl (beatRows_eq_of_agree q hq r hr (patterns_agree_of_matchesWord h hmatch))⟩
  · obtain ⟨r, hr, hmn, hmatch⟩ := decodeHost_matchesRow w
    refine ⟨r, hr, hmatch, hmn, fun q hq h => ?_⟩
    by_cases hmask : q.mask = 0x3FF00
    · exact .inl (hostRows_eq_of_mnemonic q hq r hr ((mnemonic_of_matches_registerRow hq hmask h).trans hmn.symm))
    · exact hostRows_partial_of_agree q hq r hr hmask (patterns_agree_of_matchesWord h hmatch)

end Sys2Proof.Machine
end

section
/-! SUPPORT. The pseudo-instructions SEND and FRAME (30_encoding.md R80): what they deliver, and that FRAME's checksum is the
one `parse` computes (40_aligner_checksum.md R120). -/

namespace Sys2Proof.Machine

/-- SEND delivers its bytes as one buffer (R80). -/
theorem delivered_sendOps (bs : List Byte) : delivered (sendOps bs) = some bs := by
  induction bs with
  | nil => rfl
  | cons b bs ih =>
    cases bs with
    | nil => rfl
    | cons c cs =>
      calc delivered (sendOps (b :: c :: cs)) = (delivered (sendOps (c :: cs))).map (b :: ·) := rfl
        _ = some (b :: c :: cs) := by rw [ih]; rfl

theorem toNat_ofNat_length {ds : List Byte} (h : ds.length ≤ 255) : (BitVec.ofNat 8 ds.length).toNat = ds.length := by
  rw [BitVec.toNat_ofNat]
  omega

/-- FRAME's checksum is the sum of type, length and payload modulo 256 (R80, R117). -/
theorem sumMod256_eq_frameChecksum (t : Byte) {ds : List Byte} (h : ds.length ≤ 255) :
    sumMod256 (t :: BitVec.ofNat 8 ds.length :: ds) = frameChecksum t ds := by
  rw [sumMod256, frameChecksum, List.map_cons, List.map_cons, toNat_ofNat_length h, List.sum_cons, List.sum_cons,
    Nat.add_assoc]

/-- Settles O52: FRAME is SEND of the frame's bytes, and they are a whole frame with no suffix. -/
theorem assembledFrameParsesValid : Obligations.AssembledFrameParsesValid := by
  intro t ds hlen
  refine ⟨_, _, _, if_pos hlen, delivered_sendOps _, parse_of_whole_frame (toNat_ofNat_length hlen).symm, rfl, rfl, ?_⟩
  exact beq_iff_eq.mpr (sumMod256_eq_frameChecksum t hlen)

end Sys2Proof.Machine
end

section
/-! SUPPORT. The stream beats while reset is released (40_aligner_checksum.md R100 to R116): what each beat leaves in each
phase, what it leaves alone, and that a reserved beat mixed into a buffer leaves nothing but BERR. -/

namespace Sys2Proof.Machine

/-! ## The checksum engine -/

/-- The adder drops its carry: it adds modulo 256 (R101). -/
theorem csumAdd_toNat (acc b : Byte) : (csumAdd acc b).toNat = (acc.toNat + b.toNat) % 256 := by
  rw [csumAdd_eq_add, BitVec.toNat_add]

theorem csumAdd_eq_ofNat (acc b : Byte) : csumAdd acc b = BitVec.ofNat 8 ((acc.toNat + b.toNat) % 256) := by
  rw [← csumAdd_toNat, BitVec.ofNat_toNat, BitVec.setWidth_eq]

/-! ## The byte step, one equation a phase -/

section
variable {x : Regs} (b : Byte)

theorem takeByte_of_idle (h : x.phase = .idle) : takeByte b x = .ok (takeHead b x) := by rw [takeByte, h]
theorem takeByte_of_type (h : x.phase = .type) : takeByte b x = .ok (takeType b x) := by rw [takeByte, h]
theorem takeByte_of_len (h : x.phase = .len) : takeByte b x = .ok (takeLength b x) := by rw [takeByte, h]
theorem takeByte_of_csum (h : x.phase = .csum) : takeByte b x = .ok (takeCsum b x) := by rw [takeByte, h]
theorem takeByte_of_suffix (h : x.phase = .suffix) : takeByte b x = .ok (takeSuffix x) := by rw [takeByte, h]
theorem takeByte_of_drain (h : x.phase = .drain) : takeByte b x = .ok x := by rw [takeByte, h]

/-- In DATA the byte is stored where CNT names a cell (R107). -/
theorem takeByte_of_data (h : x.phase = .data) (hcnt : x.cnt.toNat < 255) :
    takeByte b x = .ok { x with
      pay := x.pay.write x.cnt.toNat b, acc := csumAdd x.acc b, cnt := x.cnt + 1
      phase := if x.cnt.toNat + 1 = x.lenr.toNat then .csum else .data } := by
  rw [takeByte, h]
  rcases takeData_cases b x with ⟨-, ht⟩ | ⟨hfull, -⟩
  · exact ht
  · omega

end

/-- The suffix counter saturates at 255 (R109). -/
theorem takeSuffix_sfx_toNat (x : Regs) : (takeSuffix x).sfx.toNat = min (x.sfx.toNat + 1) 255 := by
  have := x.sfx.isLt
  rw [takeSuffix_sfx]
  split
  · simp_all
  · bv_omega

/-! ## Beats on a ready port -/

section
variable {s : State} (hrst : s.rst = false) (hphase : s.x.phase ≠ .done)
include hrst hphase

theorem exec_push_of_takeByte {b : Byte} {y : Regs} (hy : takeByte b s.x = .ok y) :
    exec (.push b) s = .next { s with x := y } :=
  acceptBeat_ready ((siReady_iff s).mpr ⟨hphase, hrst⟩) hy

theorem exec_pushl_of_takeByte {b : Byte} {y : Regs} (hy : takeByte b s.x = .ok y) :
    exec (.pushl b) s = .next { s with x := endOfBuffer y } :=
  acceptBeat_ready ((siReady_iff s).mpr ⟨hphase, hrst⟩) (f := fun x => (takeByte b x).map endOfBuffer) (by rw [hy]; rfl)

theorem exec_eob_of_ready (d : Byte) : exec (.eob d) s = .next { s with x := endOfBuffer s.x } :=
  acceptBeat_ready ((siReady_iff s).mpr ⟨hphase, hrst⟩) (f := fun x => .ok (endOfBuffer x)) rfl

theorem exec_beatRsvd_of_ready (d : Byte) : exec (.beatRsvd d) s = .next { s with x := markReserved s.x } :=
  acceptBeat_ready ((siReady_iff s).mpr ⟨hphase, hrst⟩) (f := fun x => .ok (markReserved x)) rfl

end

/-! ## Held beats -/

theorem siReady_of_done {s : State} (h : s.x.phase = .done) : s.siReady = false := by simp [State.siReady, h]

/-- The port accepts every beat in the one way of R100, whatever its procedure. -/
theorem exec_of_stream_port {i : Instr} (h : i.port = .stream) : ∃ f, exec i = acceptBeat f := by
  cases i with
  | push b => exact ⟨takeByte b, rfl⟩
  | pushl b => exact ⟨fun x => (takeByte b x).map endOfBuffer, rfl⟩
  | eob d => exact ⟨fun x => .ok (endOfBuffer x), rfl⟩
  | beatRsvd d => exact ⟨fun x => .ok (markReserved x), rfl⟩
  | _ => cases h

/-- A beat offered to a port that is not ready changes nothing (R100). -/
theorem exec_of_held_beat {i : Instr} {s : State} (hport : i.port = .stream) (hr : s.siReady = false) :
    exec i s = .next s := by
  obtain ⟨f, hf⟩ := exec_of_stream_port hport
  rw [hf, acceptBeat_held hr]

/-- Settles O7: outside reset the port is closed in DONE alone, and an accepted beat leaves the stream before it runs. -/
theorem beatIsHeldExactlyWhileNotReady : Obligations.BeatIsHeldExactlyWhileNotReady := by
  refine ⟨fun s i hport hdone => exec_of_held_beat hport (siReady_of_done hdone), fun s ts ht hdone hrst => ?_,
    fun s t ts ht hphase hrst hstep => ?_⟩
  · rw [step_of_beat_turn ht, offerBeat_of_none (.inr (siReady_of_done (s := s.passTurn) hdone)), edgeWithoutOperation,
      if_neg (by simp [hrst])]
    simp [State.passTurn, ht]
  · cases hw : s.stream with
    | nil =>
      rw [step_of_beat_turn ht, offerBeat_of_none (s := s.passTurn) (.inl hw), edgeWithoutOperation,
        if_neg (by simp [hrst])] at hstep
      rw [← Host.Outcome.next.inj hstep]
      exact hw
    | cons w ws =>
      rw [stepRunsTheAcceptedBeat s ts w ws ht hw hphase hrst] at hstep
      obtain ⟨-, hstream, -⟩ := exec_keeps_agents hstep
      exact hstream

/-! ## PUSH, phase by phase -/

/-- Settles O13: R104's writes, HDRBAD as the comparison of the head with START_MARKER. -/
theorem pushInIdleStartsABuffer : Obligations.PushInIdleStartsABuffer := by
  intro s b hrst hp
  have hbad : (b != Config.startMarker) = decide (b ≠ 0xBB#8) := (decide_not ..).symm
  rw [exec_push_of_takeByte hrst (by simp [hp]) (takeByte_of_idle b hp), takeHead, hbad]

/-- Settles O14: the type is added to the sum modulo 256. -/
theorem pushInTypeTakesTheTypeCode : Obligations.PushInTypeTakesTheTypeCode := by
  intro s b hrst hp
  rw [exec_push_of_takeByte hrst (by simp [hp]) (takeByte_of_type b hp), takeType, csumAdd_eq_ofNat]

/-- Settles O15: the length is added to the sum, and R106 chooses the next phase. -/
theorem pushInLenTakesTheLength : Obligations.PushInLenTakesTheLength := by
  intro s b hrst hp
  rw [exec_push_of_takeByte hrst (by simp [hp]) (takeByte_of_len b hp), takeLength, csumAdd_eq_ofNat]

/-- Settles O16: CNT is below LENR, so `PAY[CNT]` exists and CNT + 1 does not wrap; the memory law gives the cells. -/
theorem pushInDataStoresAPayloadByte : Obligations.PushInDataStoresAPayloadByte := by
  intro s b hrst hp hlt hwf
  have hlen := s.x.lenr.isLt
  have hcnt : (s.x.cnt + 1).toNat = s.x.cnt.toNat + 1 := by bv_omega
  refine ⟨_, exec_push_of_takeByte hrst (by simp [hp]) (takeByte_of_data b hp (by omega)), ?_, by omega, hcnt,
    Memory.read_write_same _ b hwf, fun j hj => Memory.read_write_other _ _ j b hj⟩
  rw [csumAdd_eq_ofNat]

/-- Settles O17: the checksum byte is stored, and ACC is not among the registers R108 writes. -/
theorem pushInCsumTakesTheChecksum : Obligations.PushInCsumTakesTheChecksum :=
  fun _ b hrst hp => exec_push_of_takeByte hrst (by simp [hp]) (takeByte_of_csum b hp)

/-- Settles O18: SUFFIX writes the saturating counter alone, and DRAIN nothing. -/
theorem pushInSuffixCountsAndInDrainDrops : Obligations.PushInSuffixCountsAndInDrainDrops := by
  refine ⟨fun s b hrst hp => ?_, fun s b hrst hp => exec_push_of_takeByte hrst (by simp [hp]) (takeByte_of_drain b hp)⟩
  have hsfx : (takeSuffix s.x).sfx = BitVec.ofNat 8 (min (s.x.sfx.toNat + 1) 255) := by
    rw [← takeSuffix_sfx_toNat, BitVec.ofNat_toNat, BitVec.setWidth_eq]
  rw [exec_push_of_takeByte hrst (by simp [hp]) (takeByte_of_suffix b hp), ← hsfx]
  rfl

/-! ## The end of a buffer -/

/-- The result each phase latches, in one form (R102, R103). -/
theorem endOfBuffer_of_not_done {x : Regs} (h : x.phase ≠ .done) :
    endOfBuffer x = { x with
      phase := .done
      errc := if x.phase = .suffix then 0 else if x.phase = .drain then 2 else 1
      okf := decide (x.phase = .suffix)
      csv := decide (x.phase = .suffix ∧ x.acc = x.csrx) } := by
  rcases endOfBuffer_cases x with ⟨hp, he⟩ | ⟨hp, he⟩ | ⟨hp, -⟩ | ⟨hp, he⟩
  · simp only [he, completeOk, hp, true_and, decide_true, if_true]
    rfl
  · simp [he, raiseBadStartMarker, hp]
  · exact absurd hp h
  · rcases hp with hp | hp | hp | hp | hp <;> simp [he, raiseTooShort, hp]

/-- Settles O19: EOB runs the end of the buffer, which latches the result of the phase. -/
theorem eobLatchesTheResultOfThePhase : Obligations.EobLatchesTheResultOfThePhase := by
  intro s d hrst hphase
  rw [exec_eob_of_ready hrst hphase, endOfBuffer_of_not_done hphase]

/-- Settles O20: the result is that of the phase the byte leads to, one case a phase of the byte step. -/
theorem pushlLatchesTheResultAfterItsByte : Obligations.PushlLatchesTheResultAfterItsByte := by
  intro s b hrst hphase hcnt
  obtain ⟨y, hy⟩ := takeByte_ok b s.x hcnt
  refine ⟨_, exec_pushl_of_takeByte hrst hphase hy, endOfBuffer_phase y, ?_⟩
  rcases takeByte_cases hy with ⟨hp, rfl⟩ | ⟨hp, rfl⟩ | ⟨hp, rfl⟩ | ⟨hp, -, rfl⟩ | ⟨hp, rfl⟩ | ⟨hp, rfl⟩ | ⟨hp, rfl⟩ |
    ⟨hp, -⟩ <;> simp only [hp]
  · exact ⟨rfl, rfl, rfl, rfl⟩
  · exact ⟨rfl, rfl, rfl, rfl⟩
  · rcases takeLength_phase_cases b s.x with ⟨hbad, hl⟩ | ⟨hbad, -, hl⟩ | ⟨hbad, -, hl⟩ <;>
      simp [endOfBuffer_of_not_done, -takeLength_phase, hl, hbad]
  · by_cases hl : s.x.cnt.toNat + 1 = s.x.lenr.toNat <;> simp [endOfBuffer_of_not_done, hl]
  · exact ⟨rfl, rfl, rfl, rfl, rfl⟩
  · rw [endOfBuffer, takeSuffix_phase, hp]
    exact ⟨rfl, rfl, rfl, takeSuffix_sfx_toNat s.x⟩
  · rw [endOfBuffer, hp]
    exact ⟨rfl, rfl, rfl⟩

/-! ## What a byte leaves alone -/

/-- The registers and cells of `PAY` that a byte taken in the phase of `x` leaves as they were in `y` (R104 to R110). -/
structure ByteFrame (x y : Regs) : Prop where
  berr : y.berr = x.berr
  head : x.phase ≠ .idle → y.headr = x.headr ∧ y.hdrbad = x.hdrbad
  typer : x.phase ≠ .idle ∧ x.phase ≠ .type → y.typer = x.typer
  lenr : x.phase ≠ .idle ∧ x.phase ≠ .len → y.lenr = x.lenr
  cnt : x.phase ≠ .idle ∧ x.phase ≠ .len ∧ x.phase ≠ .data → y.cnt = x.cnt
  csrx : x.phase ≠ .idle ∧ x.phase ≠ .csum → y.csrx = x.csrx
  acc : x.phase ≠ .idle ∧ x.phase ≠ .type ∧ x.phase ≠ .len ∧ x.phase ≠ .data → y.acc = x.acc
  sfx : x.phase ≠ .idle ∧ x.phase ≠ .suffix → y.sfx = x.sfx
  pay : x.phase ≠ .data → y.pay = x.pay
  cells : ∀ a, a ≠ x.cnt.toNat → y.pay.read a = x.pay.read a

theorem ByteFrame.refl (x : Regs) : ByteFrame x x := by constructor <;> simp

/-- Each arm of the byte step writes no register of another arm (R104 to R110). -/
theorem takeByte_frame {b : Byte} {x y : Regs} (hy : takeByte b x = .ok y) : ByteFrame x y := by
  rcases takeByte_cases hy with ⟨hp, rfl⟩ | ⟨hp, rfl⟩ | ⟨hp, rfl⟩ | ⟨hp, -, rfl⟩ | ⟨hp, rfl⟩ | ⟨hp, rfl⟩ | ⟨-, rfl⟩ | ⟨-, rfl⟩
  · constructor <;> simp [hp]
  · constructor <;> simp [hp]
  · constructor <;> simp [hp]
  · constructor
    case cells => exact fun a ha => Memory.read_write_other _ _ a b ha
    all_goals simp [hp]
  · constructor <;> simp [hp]
  · constructor <;> simp [hp]
  · exact .refl _
  · exact .refl _

/-- Only a head clears ERRC, OKF and CSV; no byte latches them (R104). -/
theorem takeByte_result_of_not_idle {b : Byte} {x y : Regs} (hp : x.phase ≠ .idle) (hy : takeByte b x = .ok y) :
    y.errc = x.errc ∧ y.okf = x.okf ∧ y.csv = x.csv := by
  rcases takeByte_cases hy with ⟨h, -⟩ | ⟨-, rfl⟩ | ⟨-, rfl⟩ | ⟨-, -, rfl⟩ | ⟨-, rfl⟩ | ⟨-, rfl⟩ | ⟨-, rfl⟩ | ⟨-, rfl⟩
  case inl => exact absurd h hp
  all_goals exact ⟨rfl, rfl, rfl⟩

/-- The end of a buffer writes only the result and the phase (R103). -/
theorem endOfBuffer_eq_update (x : Regs) :
    ∃ e o c, endOfBuffer x = { x with phase := .done, errc := e, okf := o, csv := c } := by
  rcases endOfBuffer_cases x with ⟨-, he⟩ | ⟨-, he⟩ | ⟨hp, he⟩ | ⟨-, he⟩
  case inr.inr.inl => exact ⟨x.errc, x.okf, x.csv, by rw [he, ← hp]⟩
  all_goals exact ⟨_, _, _, he⟩

theorem ByteFrame.endOfBuffer {x y : Regs} (h : ByteFrame x y) : ByteFrame x (endOfBuffer y) := by
  obtain ⟨e, o, c, he⟩ := endOfBuffer_eq_update y
  rw [he]
  exact ⟨h.berr, h.head, h.typer, h.lenr, h.cnt, h.csrx, h.acc, h.sfx, h.pay, h.cells⟩

/-- A beat with a byte changes the record alone, in the frame of its byte, and a PUSH latches no result. -/
theorem exec_byteBeat_frame {s t : State} {b : Byte} {i : Instr} (hi : i = .push b ∨ i = .pushl b)
    (h : exec i s = .next t) : t = { s with x := t.x } ∧ ByteFrame s.x t.x ∧
      (s.x.phase ≠ .idle → i = .push b → t.x.errc = s.x.errc ∧ t.x.okf = s.x.okf ∧ t.x.csv = s.x.csv) := by
  rcases exec_next_cases h with ⟨-, y, rfl, hbeat⟩ | ⟨-, v, -, hport⟩ | ⟨-, v, rfl, -⟩ | rfl
  · rcases hbeat with ⟨c, rfl, hy⟩ | ⟨c, z, rfl, hz, rfl⟩ | ⟨d, rfl, -⟩ | ⟨d, rfl, -⟩
    · exact ⟨rfl, takeByte_frame hy, fun hp _ => takeByte_result_of_not_idle hp hy⟩
    · exact ⟨rfl, (takeByte_frame hz).endOfBuffer, fun _ hi => by cases hi⟩
    · simp at hi
    · simp at hi
  · rcases hi with rfl | rfl <;> cases hport
  · simp at hi
  · exact ⟨rfl, .refl _, fun _ _ => ⟨rfl, rfl, rfl⟩⟩

/-- Settles O24: the frame of the byte step, which the end of a buffer keeps. -/
theorem byteBeatFrame : Obligations.ByteBeatFrame := by
  intro s t b i hi _ h
  obtain ⟨hstate, hframe, hresult⟩ := exec_byteBeat_frame hi h
  exact ⟨hstate, hframe.berr, hframe.head, hframe.typer, hframe.lenr, hframe.cnt, hframe.csrx, hframe.acc, hframe.sfx,
    fun ⟨hp, hpush⟩ => hresult hp hpush, fun hp a => by rw [hframe.pay hp], fun _ _ => hframe.cells⟩

/-! ## Reserved beats -/

theorem ctrlWrite_berr_of_not_clear {v : Byte} (h : v.getLsbD 0 = false) (x : Regs) : (ctrlWrite v x).berr = x.berr := by
  rcases ctrlWrite_cases v x with ⟨hclear, -⟩ | ⟨-, -, -, he⟩ | ⟨-, -, he⟩
  · exact absurd (h.symm.trans hclear) Bool.false_ne_true
  · rw [he]
  · rw [he]

/-- Settles O23: R116's one write on a ready port, the hold in DONE, and ACK's one write. -/
theorem reservedBeatOnlySetsBeatErr : Obligations.ReservedBeatOnlySetsBeatErr := by
  refine ⟨fun s d hrst hphase => exec_beatRsvd_of_ready hrst hphase d,
    fun s d hdone => exec_of_held_beat rfl (siReady_of_done hdone), fun s t v hclear h => ?_⟩
  rw [exec_wrCtrl, acceptWrite_eq] at h
  rw [← Host.Outcome.next.inj h]
  split
  · rfl
  · exact ctrlWrite_berr_of_not_clear hclear s.x

/-- The record with another value of BERR. -/
def Regs.withBerr (c : Bool) (x : Regs) : Regs := { x with berr := c }

/-- The state with another value of BERR. -/
def State.withBerr (c : Bool) (s : State) : State := s.withRegs (s.x.withBerr c)

/-- A procedure over the record neither reads nor writes BERR. -/
def BerrBlind (f : Regs → Except Fault Regs) : Prop := ∀ x c, f (x.withBerr c) = (f x).map (·.withBerr c)

theorem Regs.writePay_withBerr (c : Bool) (x : Regs) (i v : Byte) :
    (x.withBerr c).writePay i v = (x.writePay i v).map (·.withBerr c) := by
  unfold Regs.writePay
  split <;> rfl

theorem berrBlind_takeByte (b : Byte) : BerrBlind (takeByte b) := by
  intro x c
  have hphase : (x.withBerr c).phase = x.phase := rfl
  rw [takeByte, takeByte, hphase]
  cases x.phase
  case data =>
    have hcnt : (x.withBerr c).cnt = x.cnt := rfl
    simp only [takeData, hcnt, Regs.writePay_withBerr]
    cases x.writePay x.cnt b <;> rfl
  all_goals rfl

theorem endOfBuffer_withBerr (x : Regs) (c : Bool) : endOfBuffer (x.withBerr c) = (endOfBuffer x).withBerr c := by
  have hphase : (x.withBerr c).phase = x.phase := rfl
  rw [endOfBuffer, endOfBuffer, hphase]
  cases x.phase <;> rfl

theorem BerrBlind.map_endOfBuffer {f : Regs → Except Fault Regs} (hf : BerrBlind f) :
    BerrBlind (fun x => (f x).map endOfBuffer) := by
  intro x c
  simp only [hf x c]
  cases f x with
  | ok y => exact congrArg Except.ok (endOfBuffer_withBerr y c)
  | error e => rfl

theorem BerrBlind.acceptBeat {f : Regs → Except Fault Regs} (hf : BerrBlind f) {s t : State} (c : Bool)
    (h : acceptBeat f s = .next t) : acceptBeat f (s.withBerr c) = .next (t.withBerr c) := by
  rcases acceptBeat_next h with ⟨hr, y, hy, rfl⟩ | ⟨hr, rfl⟩
  · exact acceptBeat_ready (s := s.withBerr c) hr ((hf s.x c).trans (by rw [hy]; rfl))
  · exact acceptBeat_held hr

/-- A beat that is not reserved runs alike whatever BERR is. -/
theorem exec_withBerr {i : Instr} {s t : State} (hport : i.port = .stream) (hi : i.isReserved = false) (c : Bool)
    (h : exec i s = .next t) : exec i (s.withBerr c) = .next (t.withBerr c) := by
  cases i with
  | push b => exact (berrBlind_takeByte b).acceptBeat c h
  | pushl b => exact (berrBlind_takeByte b).map_endOfBuffer.acceptBeat c h
  | eob d => exact BerrBlind.map_endOfBuffer (f := .ok) (fun _ _ => rfl) |>.acceptBeat c h
  | beatRsvd d => cases hi
  | _ => cases hport

/-- A reserved beat leaves the state as it was but for BERR. -/
theorem withBerr_of_reserved {i : Instr} {s t : State} (hi : i.isReserved = true) (c : Bool) (h : exec i s = .next t) :
    t.withBerr c = s.withBerr c := by
  cases i with
  | beatRsvd d =>
    rw [exec_beatRsvd] at h
    rcases acceptBeat_next h with ⟨-, y, hy, rfl⟩ | ⟨-, rfl⟩
    · rw [← Except.ok.inj hy]
      rfl
    · rfl
  | _ => cases hi

theorem runOps_cons_next_iff {i : Instr} {is : List Instr} {s t : State} :
    runOps (i :: is) s = .next t ↔ ∃ u, exec i s = .next u ∧ runOps is u = .next t := by
  rw [runOps]
  cases exec i s <;> simp

/-- The beats of a run that are not reserved run alike whatever BERR is, by induction on the run. -/
theorem runOps_filter_withBerr {is : List Instr} {s t : State} (c : Bool) (hports : ∀ i ∈ is, i.port = .stream)
    (h : runOps is s = .next t) :
    runOps (is.filter (fun i => !i.isReserved)) (s.withBerr c) = .next (t.withBerr c) := by
  induction is generalizing s with
  | nil =>
    rw [← Host.Outcome.next.inj h]
    rfl
  | cons i is ih =>
    obtain ⟨u, hexec, hrun⟩ := runOps_cons_next_iff.mp h
    have rest := ih (fun j hj => hports j (by simp [hj])) hrun
    cases hi : i.isReserved with
    | true =>
      rw [List.filter_cons_of_neg (by simp [hi]), ← withBerr_of_reserved hi c hexec]
      exact rest
    | false =>
      rw [List.filter_cons_of_pos (by simp [hi])]
      exact runOps_cons_next_iff.mpr ⟨_, exec_withBerr (hports i (by simp)) hi c hexec, rest⟩

/-- Settles O48: the run without the reserved beats, from the same BERR. -/
theorem reservedBeatsChangeOnlyBeatErr : Obligations.ReservedBeatsChangeOnlyBeatErr :=
  fun _ s t hports h => ⟨t.withBerr s.x.berr, runOps_filter_withBerr s.x.berr hports h, rfl⟩

end Sys2Proof.Machine
end

section
/-! SUPPORT. The reference function `parse` (40_aligner_checksum.md R117, R120) and the contract of a delivered buffer (R121):
a buffer is cut where `parse` looks, and the delivery is followed to the operation that ends it. -/

namespace Sys2Proof.Machine

/-! ## The sum -/

/-- Settles O49, by induction on the bytes from the last one: each is one more addition modulo 256. -/
theorem addingBytewiseIsTheSumMod256 : Obligations.AddingBytewiseIsTheSumMod256 := by
  refine ⟨csumAdd_toNat, fun bs => ?_⟩
  induction bs using List.reverseRecOn with
  | nil => rfl
  | append_singleton bs b ih => rw [List.foldl_concat, ih, sumMod256_append_singleton]

/-! ## The bytes that `parse` looks at -/

theorem exists_header {raw : List Byte} (h : 3 ≤ raw.length) : ∃ hd t l p, raw = hd :: t :: l :: p := by
  match raw, h with
  | hd :: t :: l :: p, _ => exact ⟨hd, t, l, p, rfl⟩

/-- More than `n` bytes are `n` bytes, one more, and the rest. -/
theorem exists_payload {bs : List Byte} {n : Nat} (h : n < bs.length) :
    ∃ p c r, bs = p ++ c :: r ∧ p.length = n :=
  ⟨bs.take n, bs[n], bs.drop (n + 1), by rw [← List.drop_eq_getElem_cons h, List.take_append_drop],
    List.length_take_of_le (Nat.le_of_lt h)⟩

/-- A buffer that holds its frame: header, as many payload bytes as the length byte says, checksum, suffix (R70, R120). -/
theorem exists_whole_frame {raw : List Byte} (h : 3 + (rawAt raw 2).toNat + 1 ≤ raw.length) :
    ∃ hd t l p c r, raw = hd :: t :: l :: (p ++ c :: r) ∧ p.length = l.toNat := by
  obtain ⟨hd, t, l, bs, rfl⟩ := exists_header (by omega : 3 ≤ raw.length)
  have hl : rawAt (hd :: t :: l :: bs) 2 = l := rfl
  obtain ⟨p, c, r, rfl, hlen⟩ := exists_payload (n := l.toNat) (bs := bs) (by
    rw [hl] at h
    simp only [List.length_cons] at h
    omega)
  exact ⟨hd, t, l, p, c, r, rfl, hlen⟩

/-! ## The results of `parse` -/

/-- Settles O50: the buffer is cut where the step that decides looks, and each cut has its one result. -/
theorem parseDecidesInTheOrderOfTheSteps : Obligations.ParseDecidesInTheOrderOfTheSteps := by
  refine fun raw => ⟨parse_of_header_cut, fun h hne => ?_, fun h hhead hshort => ?_, fun hhead hlen => ?_⟩
  · obtain ⟨hd, t, l, p, rfl⟩ := exists_header h
    exact parse_of_bad_head p hne
  · obtain ⟨hd, t, l, p, rfl⟩ := exists_header h
    obtain rfl : hd = Config.startMarker := hhead
    have hl : rawAt (Config.startMarker :: t :: l :: p) 2 = l := rfl
    rw [hl] at hshort
    simp only [List.length_cons] at hshort
    exact parse_of_frame_cut (by omega)
  · obtain ⟨hd, t, l, p, c, r, rfl, hp⟩ := exists_whole_frame hlen
    obtain rfl : hd = Config.startMarker := hhead
    exact ⟨_, parse_of_whole_frame hp, hp, rfl, rfl⟩

/-- `parse` succeeds only on a whole frame after the start marker, and yields that frame (R120). -/
theorem eq_frameOf_of_parse {raw : List Byte} {f : ParsedFrame} (h : parse raw = .ok f) :
    ∃ t l p c, p.length = l.toNat ∧ f = frameOf t l p c := by
  obtain ⟨hcut, hbad, hshort, -⟩ := parseDecidesInTheOrderOfTheSteps raw
  have hheader : 3 ≤ raw.length := by
    by_contra hlt
    cases h.symm.trans (hcut (by omega))
  have hhead : rawAt raw 0 = 0xBB#8 := by
    by_contra hne
    cases h.symm.trans (hbad hheader hne)
  have hlen : 3 + (rawAt raw 2).toNat + 1 ≤ raw.length := by
    by_contra hlt
    cases h.symm.trans (hshort hheader hhead (by omega))
  obtain ⟨hd, t, l, p, c, r, rfl, hp⟩ := exists_whole_frame hlen
  obtain rfl : hd = Config.startMarker := hhead
  exact ⟨t, l, p, c, hp, Except.ok.inj (h.symm.trans (parse_of_whole_frame hp))⟩

/-- Settles O51: the frame's bytes are a whole frame with no suffix. -/
theorem parseOfEncodedFrameIsTheFrame : Obligations.ParseOfEncodedFrameIsTheFrame := by
  intro raw f h
  obtain ⟨t, l, p, c, hp, rfl⟩ := eq_frameOf_of_parse h
  exact parse_of_whole_frame hp

/-! ## The delivery of a buffer -/

theorem isReserved_of_host_port {i : Instr} (h : i.port = .host) : i.isReserved = false := by
  cases i with
  | push | beatRsvd | pushl | eob => cases h
  | _ => rfl

/-- An accepted operation other than CLEAR and ACK sets BERR if it is a reserved beat, and keeps it if it is not (R116). -/
theorem exec_berr {i : Instr} {s t : State} (hr : s.siReady = true) (hctrl : i.isCtrlAction = false)
    (h : exec i s = .next t) : t.x.berr = (s.x.berr || i.isReserved) := by
  cases hport : i.port with
  | host =>
    obtain ⟨u, hu, hx⟩ := exec_host_keeps_record s hport hctrl
    obtain rfl := Host.Outcome.next.inj (h.symm.trans hu)
    rw [hx, isReserved_of_host_port hport, Bool.or_false]
  | stream =>
    obtain ⟨hphase, hrst⟩ := (siReady_iff s).mp hr
    cases i with
    | push b =>
      obtain ⟨-, hframe, -⟩ := exec_byteBeat_frame (.inl rfl) h
      exact hframe.berr.trans (Bool.or_false _).symm
    | pushl b =>
      obtain ⟨-, hframe, -⟩ := exec_byteBeat_frame (.inr rfl) h
      exact hframe.berr.trans (Bool.or_false _).symm
    | eob d =>
      rw [exec_eob_of_ready hrst hphase] at h
      rw [← Host.Outcome.next.inj h]
      exact (endOfBuffer_berr s.x).trans (Bool.or_false _).symm
    | beatRsvd d =>
      rw [exec_beatRsvd_of_ready hrst hphase] at h
      rw [← Host.Outcome.next.inj h]
      exact (Bool.or_true _).symm
    | _ => cases hport

theorem isCtrlAction_of_delivered {i : Instr} {is : List Instr} {more : List Byte} (h : delivered (i :: is) = some more) :
    i.isCtrlAction = false := by
  rcases delivered_cons_cases h with ⟨b, -, rfl, -⟩ | ⟨b, rfl, -⟩ | ⟨d, rfl, -⟩ | ⟨⟨-, hctrl⟩ | hreserved, -⟩
  · rfl
  · rfl
  · rfl
  · exact hctrl
  · cases i with
    | beatRsvd d => rfl
    | _ => cases hreserved

/-- From a buffer in progress the operations that deliver its bytes to come leave the contract, by induction on them. -/
theorem Receiving.runOps_of_delivered {is : List Instr} {raw more : List Byte} {s : State} (h : Receiving raw s)
    (hd : delivered is = some more) : ∃ t, runOps is s = .next t ∧ MeetsContract (raw ++ more) t.x ∧
      t.x.berr = (s.x.berr || is.any Instr.isReserved) := by
  induction is generalizing raw more s with
  | nil => cases hd
  | cons i is ih =>
    obtain ⟨u, hexec, hcases⟩ := exec_of_delivered h hd
    have hberr := exec_berr h.ready (isCtrlAction_of_delivered hd) hexec
    rcases hcases with ⟨rfl, hcontract⟩ | ⟨raw', more', hu, hd', heq⟩
    · exact ⟨u, runOps_cons_next_iff.mpr ⟨u, hexec, rfl⟩, hcontract, by simpa using hberr⟩
    · obtain ⟨t, hrun, hcontract, ht⟩ := ih hu hd'
      exact ⟨t, runOps_cons_next_iff.mpr ⟨u, hexec, hrun⟩, heq ▸ hcontract,
        by rw [ht, hberr, List.any_cons, Bool.or_assoc]⟩

/-- Settles O54: in IDLE a buffer is in progress that has no byte yet. -/
theorem deliveredBufferMeetsTheContract : Obligations.DeliveredBufferMeetsTheContract :=
  fun _ _ _ hinv hrst hidle hd => (receiving_nil hinv hrst hidle).runOps_of_delivered hd

end Sys2Proof.Machine
end

section
/-! SUPPORT. The host operations (41_host_ops.md): each word of either port is the word of a well-formed operation, and what a
write leaves of the record, by CLEAR, ACK and the offset (R130, R132, R133). -/

namespace Sys2Proof.Machine

/-! ## Every word is an operation -/

/-- Settles O2: the rules of the two decoders, port by port. -/
theorem everyWordIsTheWordOfItsOperation : Obligations.EveryWordIsTheWordOfItsOperation := by
  intro w
  cases w with
  | beat w => exact ⟨decodeBeat_wf w, encode_decodeBeat w, port_decodeBeat w⟩
  | host w => exact ⟨decodeHost_wf w, encode_decodeHost w, port_decodeHost w⟩

/-! ## CTRL writes while reset is released -/

/-- A CTRL write while reset is released updates the record and changes nothing else (R130, R132). -/
theorem exec_wrCtrl_of_released (v : Byte) {s : State} (hrst : s.rst = false) :
    exec (.wrCtrl v) s = .next (s.withRegs (ctrlWrite v s.x)) := by
  rw [exec_wrCtrl, acceptWrite_eq, if_neg (by simp [hrst])]

/-- CLEAR and a reset edge write the same values and both keep `PAY` (R132, R180). -/
theorem clearAll_eq_resetEdge (x : Regs) : clearAll x = resetEdge x := rfl

/-- CLEAR, or ACK of a latched result, leads to IDLE; only CLEAR takes BEAT_ERR with it (R34, R132). -/
theorem ctrlWrite_of_release {v : Byte} {x : Regs} (h : v.getLsbD 0 = true ∨ v.getLsbD 1 = true ∧ x.phase = .done) :
    (ctrlWrite v x).phase = .idle ∧ (ctrlWrite v x).berr = (!v.getLsbD 0 && x.berr) := by
  rcases ctrlWrite_cases v x with ⟨hclear, hw⟩ | ⟨hclear, -, -, hw⟩ | ⟨hclear, hkeep, -⟩
  · rw [hw, hclear]
    exact ⟨rfl, rfl⟩
  · rw [hw, hclear]
    exact ⟨rfl, rfl⟩
  · rcases h with hset | ⟨hack, hdone⟩
    · exact absurd hset (ne_true_of_eq_false hclear)
    · exact absurd hdone (hkeep.resolve_left (ne_false_of_eq_true hack))

/-- In IDLE every register but STATUS reads 0x00 (R36 to R41). -/
theorem Regs.readReg_of_idle_of_ne_status {x : Regs} (h : x.phase = .idle) {r : HostReg} (hs : r ≠ .status) :
    x.readReg r = 0x00 := by
  by_cases he : r = .errcode
  · rw [he]
    exact Regs.readErrcode_of_not_done (by simp [h])
  · exact Regs.readReg_of_not_visible (by simp [Regs.visible, h]) r hs he

/-! ## The statements -/

/-- Settles O27: the turn of the reset agent and the CLEAR write the same record. -/
theorem clearIsASoftReset : Obligations.ClearIsASoftReset := by
  intro s t u v ts hrst hclear ht hu
  rw [exec_wrCtrl_of_released v hrst] at ht
  rw [step_of_reset_turn rfl] at hu
  obtain rfl := Host.Outcome.next.inj ht
  obtain rfl := Host.Outcome.next.inj hu
  calc ctrlWrite v s.x = clearAll s.x := ctrlWrite_of_clear hclear s.x
    _ = resetEdge s.x := clearAll_eq_resetEdge s.x

/-- Settles O28: the write leads to IDLE, where only BEAT_ERR can be read, and only ACK keeps it. -/
theorem releaseMakesTheResultUnreadable : Obligations.ReleaseMakesTheResultUnreadable := by
  intro s t v hrst hrelease ht
  rw [exec_wrCtrl_of_released v hrst] at ht
  obtain rfl := Host.Outcome.next.inj ht
  obtain ⟨hidle, hberr⟩ := ctrlWrite_of_release hrelease
  refine ⟨fun a ha => ?others, ?status, ?done, ?ready⟩
  case others => exact Regs.readReg_of_idle_of_ne_status hidle (mt (hostRegAt_status_iff a).mp ha)
  case status =>
    calc (ctrlWrite v s.x).readAt 0x001#9
      _ = 0x00#8 ||| (if (ctrlWrite v s.x).berr = true then 0x10#8 else 0x00#8) := Regs.statusValue_of_idle hidle
      _ = if v.getLsbD 0 = false ∧ s.x.berr = true then 0x10#8 else 0x00#8 := by simp [hberr]
  case done => simp [State.doneO, Regs.doneO, hidle]
  case ready => exact (siReady_iff _).mpr ⟨by simp [hidle], hrst⟩

/-- Settles O25: the cases of the CTRL write, each under its bits. -/
theorem wrCtrlClearsOrReleases : Obligations.WrCtrlClearsOrReleases := by
  intro s v hrst
  rw [exec_wrCtrl_of_released v hrst]
  rcases ctrlWrite_cases v s.x with ⟨hclear, hw⟩ | ⟨hclear, hack, hdone, hw⟩ | ⟨hclear, hkeep, hw⟩
  · rw [hw, if_pos hclear]
    rfl
  · rw [hw, if_neg (ne_true_of_eq_false hclear), if_pos ⟨hack, hdone⟩]
    rfl
  · have hrelease : ¬ (v.getLsbD 1 = true ∧ s.x.phase = .done) := fun ⟨hack, hdone⟩ =>
      hkeep.elim (ne_false_of_eq_true hack) (· hdone)
    rw [hw, if_neg (ne_true_of_eq_false hclear), if_neg hrelease]
    rfl

/-- Settles O29: a write word with another offset than CTRL's is the ignored write. -/
theorem writesOutsideCtrlAreIgnored : Obligations.WritesOutsideCtrlAreIgnored := by
  refine ⟨fun s a v => exec_wrIgn_eq a v s, fun s w hwe haddr => ?_⟩
  rw [decodeHost_of_write hwe haddr]
  exact exec_wrIgn_eq _ _ s

end Sys2Proof.Machine
end

section
/-! SUPPORT. Exceptions and notification (60_exceptions.md): no operation traps (R160), a decode error shows no part of the frame
(R161), and the level `done_o` is raised and dropped by nothing else than R163 says. -/

namespace Sys2Proof.Machine

/-! ## No partial frame (R161) -/

/-- Settles O38: with no frame visible only STATUS and ERRCODE can read anything, and ERRCODE does so only in DONE. -/
theorem nothingIsReadableWithoutADecodedFrame : Obligations.NothingIsReadableWithoutADecodedFrame := by
  intro x a
  by_cases hv : x.visible = true
  · exact .inl (x.visible_iff.mp hv)
  · refine .inr ⟨fun hstatus herrcode => ?_, Regs.readErrcode_of_not_done⟩
    exact Regs.readReg_of_not_visible (eq_false_of_ne_true hv) (hostRegAt a) (mt (hostRegAt_status_iff a).mp hstatus)
      (mt (hostRegAt_errcode_iff a).mp herrcode)

/-! ## No operation traps (R160) -/

/-- No host operation is refused or faults, whatever the state (R160). -/
theorem exec_host_answers_next {i : Instr} (s : State) (hport : i.port = .host) : ∃ t, exec i s = .next t := by
  by_cases hctrl : i.isCtrlAction = true
  · cases i with
    | wrCtrl v => exact ⟨_, (exec_wrCtrl v s).trans (acceptWrite_eq _ s)⟩
    | _ => cases hctrl
  · obtain ⟨t, hexec, -⟩ := exec_host_keeps_record s hport (eq_false_of_ne_true hctrl)
    exact ⟨t, hexec⟩

/-- With a record that meets the invariant every operation answers a next state: in DATA a cell of `PAY` is left for the byte
(R24 item 1). -/
theorem exec_answers_next (i : Instr) {s : State} (hinv : s.x.inv) : ∃ t, exec i s = .next t := by
  cases hport : i.port with
  | host => exact exec_host_answers_next s hport
  | stream =>
    by_cases hr : s.siReady = true
    · obtain ⟨y, hexec⟩ := exec_of_ready_beat hport hr (Regs.cnt_lt_of_inv hinv)
      exact ⟨_, hexec⟩
    · exact ⟨s, exec_of_held_beat hport (eq_false_of_ne_true hr)⟩

theorem offerBeat_answers_next {s : State} (hinv : s.x.inv) : ∃ t, offerBeat s = .next t := by
  by_cases hnone : s.stream = [] ∨ s.siReady = false
  · exact ⟨_, offerBeat_of_none hnone⟩
  · obtain ⟨hne, hr⟩ := not_or.mp hnone
    obtain ⟨w, ws, hw⟩ := List.exists_cons_of_ne_nil hne
    rw [offerBeat_of_ready hw (eq_true_of_ne_false hr)]
    exact exec_answers_next (decodeBeat w) (s := s.dropBeat) hinv

/-- The host's turn answers a next state, or refuses an access of another width than one byte (R52). -/
theorem offerAccess_answers_next_or_refuses {s : State} (hinv : s.x.inv) :
    (∃ t, offerAccess s = .next t) ∨ ∃ n, n ≠ 1 ∧ offerAccess s = .refused (.hostAccessWidth n) := by
  by_cases hnone : s.host = [] ∨ s.hrReady = false
  · exact .inl ⟨_, offerAccess_of_none hnone⟩
  · obtain ⟨hne, hr⟩ := not_or.mp hnone
    obtain ⟨⟨n, w⟩, as, ha⟩ := List.exists_cons_of_ne_nil hne
    have ready := eq_true_of_ne_false hr
    by_cases hn : n = 1
    · subst hn
      rw [offerAccess_of_ready ha ready]
      exact .inl (exec_answers_next (decodeHost w) (s := s.dropAccess) hinv)
    · exact .inr ⟨n, hn, offerAccess_of_wide ha ready hn⟩

/-- All that a step from a state of the invariant can answer, by the agent whose turn it is (R52, R160). -/
theorem step_answers_next_or_refuses {s : State} (hinv : s.x.inv) :
    (∃ t, step s = .next t) ∨ ∃ n, n ≠ 1 ∧ step s = .refused (.hostAccessWidth n) := by
  cases ht : s.turns with
  | nil => exact .inl ⟨s, by rw [step, ht]⟩
  | cons turn ts =>
    cases turn with
    | beat =>
      rw [step_of_beat_turn ht]
      exact .inl (offerBeat_answers_next (s := s.passTurn) hinv)
    | host =>
      rw [step_of_host_turn ht]
      exact offerAccess_answers_next_or_refuses (s := s.passTurn) hinv
    | reset level => exact .inl ⟨_, step_of_reset_turn ht⟩

/-- Settles O41: the step answers a next state or the one refusal, so it faults in neither case. -/
theorem noStepTraps : Obligations.NoStepTraps := by
  intro s hinv
  rcases step_answers_next_or_refuses hinv.1 with ⟨t, hstep⟩ | ⟨n, hn, hstep⟩
  · exact ⟨fun e h => (by cases hstep.symm.trans h), fun r h => (by cases hstep.symm.trans h)⟩
  · exact ⟨fun e h => (by cases hstep.symm.trans h), fun r h => ⟨n, hn, Host.Outcome.refused.inj (h.symm.trans hstep)⟩⟩

/-! ## The beats that end a buffer -/

/-- The beats with LAST = 1 are PUSHL and EOB (R72). -/
theorem beatLast_iff (w : BeatWord) : beatLast w = true ↔ ∃ b, decodeBeat w = .pushl b ∨ decodeBeat w = .eob b := by
  unfold decodeBeat
  cases beatLast w <;> cases beatNoByte w <;> simp

/-- Settles O45: PUSHL and EOB both run the end of the buffer, which leads to DONE from every phase. -/
theorem everyLastBeatLatchesAResult : Obligations.EveryLastBeatLatchesAResult := by
  intro s w hinv hrst hphase hlast
  have latched (y : Regs) : (s.withRegs (endOfBuffer y)).doneO = true ∧ (s.withRegs (endOfBuffer y)).siReady = false :=
    ⟨(Regs.doneO_iff _).mpr (endOfBuffer_phase y), siReady_of_done (endOfBuffer_phase y)⟩
  obtain ⟨b, hbeat | hbeat⟩ := (beatLast_iff w).mp hlast <;> rw [hbeat]
  · obtain ⟨y, hy⟩ := takeByte_ok b s.x (Regs.cnt_lt_of_inv hinv.1)
    exact ⟨_, exec_pushl_of_takeByte hrst hphase hy, latched y⟩
  · exact ⟨_, exec_eob_of_ready hrst hphase b, latched s.x⟩

/-! ## The level `done_o` (R163) -/

theorem State.doneO_eq_true_iff (s : State) : s.doneO = true ↔ s.x.phase = .done := s.x.doneO_iff

theorem State.doneO_eq_false_iff (s : State) : s.doneO = false ↔ s.x.phase ≠ .done := by
  rw [← Bool.not_eq_true, s.doneO_eq_true_iff]

/-- No byte leads to DONE: only the end of a buffer does (R104 to R110). -/
theorem takeByte_phase_ne_done {b : Byte} {x y : Regs} (hx : x.phase ≠ .done) (hy : takeByte b x = .ok y) :
    y.phase ≠ .done := by
  rcases takeByte_cases hy with ⟨-, rfl⟩ | ⟨-, rfl⟩ | ⟨-, rfl⟩ | ⟨-, -, rfl⟩ | ⟨-, rfl⟩ | ⟨-, rfl⟩ | ⟨-, rfl⟩ | ⟨-, rfl⟩
  · simp
  · simp
  · rcases takeLength_phase_cases b x with ⟨-, hph⟩ | ⟨-, -, hph⟩ | ⟨-, -, hph⟩ <;> rw [hph] <;> decide
  · dsimp only
    split <;> decide
  · simp
  · exact hx
  · exact hx
  · exact hx

/-- The word of a CTRL write has WE set and CTRL's offset (R132). -/
theorem eq_of_decodeHost_wrCtrl {w : HostWord} {v : Byte} (h : decodeHost w = .wrCtrl v) :
    hostWE w = true ∧ hostAddr w = 0x000#9 ∧ v = hostWData w := by
  cases hwe : hostWE w with
  | false =>
    have hread : (decodeHost w).isRead = true := by
      rw [decodeHost_of_read hwe, decodeRead_eq_readOp]
      cases hostRegAt (hostAddr w) <;> rfl
    rw [h] at hread
    cases hread
  | true =>
    by_cases ha : hostAddr w = 0x000#9
    · rw [decodeHost_of_ctrl hwe ha] at h
      exact ⟨rfl, ha, (Instr.wrCtrl.inj h).symm⟩
    · rw [decodeHost_of_write hwe ha] at h
      cases h

/-- Of the operations only PUSHL and EOB enter DONE (R114, R115, R166). -/
theorem exec_enters_done {i : Instr} {s t : State} (h : exec i s = .next t) (hs : s.x.phase ≠ .done)
    (ht : t.x.phase = .done) : ∃ b, i = .pushl b ∨ i = .eob b := by
  rcases exec_next_cases h with ⟨-, y, rfl, hbeat⟩ | ⟨-, v, rfl, -⟩ | ⟨-, v, rfl, rfl⟩ | rfl
  · rcases hbeat with ⟨b, rfl, hy⟩ | ⟨b, z, rfl, -⟩ | ⟨d, rfl, -⟩ | ⟨d, rfl, rfl⟩
    · exact absurd ht (takeByte_phase_ne_done hs hy)
    · exact ⟨b, .inl rfl⟩
    · exact ⟨d, .inr rfl⟩
    · exact absurd ht hs
  · exact absurd ht hs
  · rcases ctrlWrite_cases v s.x with ⟨-, hw⟩ | ⟨-, -, hdone, -⟩ | ⟨-, -, hw⟩
    · simp [hw] at ht
    · exact absurd hdone hs
    · exact absurd (hw ▸ ht) hs
  · exact absurd ht hs

/-- An access of the host that changes the record is a CTRL write with CLEAR or ACK (R21, R132). -/
theorem ctrl_word_of_record_changes {w : HostWord} {s t : State} (h : exec (decodeHost w) s = .next t) (hx : t.x ≠ s.x) :
    hostWE w = true ∧ hostAddr w = 0x000#9 ∧ (w.getLsbD 0 = true ∨ w.getLsbD 1 = true) := by
  obtain ⟨v, hdecode, haction, -⟩ := onlyCtrlWritesHaveAnEffect s t _ (port_decodeHost w) h hx
  obtain ⟨hwe, haddr, rfl⟩ := eq_of_decodeHost_wrCtrl hdecode
  rw [hostWData_getLsbD w (by omega), hostWData_getLsbD w (by omega)] at haction
  exact ⟨hwe, haddr, haction.imp_right And.left⟩

/-- An edge without an operation leads to IDLE in reset, and keeps the phase otherwise (R180). -/
theorem edgeWithoutOperation_phase (s : State) :
    (edgeWithoutOperation s).x.phase = if s.rst = true then .idle else s.x.phase := by
  unfold edgeWithoutOperation
  split <;> rfl

/-- An edge with `rst` at 1 leads to IDLE, and its release keeps the phase (R180). -/
theorem driveReset_phase (level : Bool) (s : State) :
    (driveReset level s).x.phase = if level = true then .idle else s.x.phase := by
  cases level <;> rfl

/-- A step enters DONE only by an accepted beat that ends a buffer (R163). -/
theorem step_enters_done {s t : State} (h : step s = .next t) (hs : s.x.phase ≠ .done) (ht : t.x.phase = .done) :
    ∃ ts w ws, s.turns = .beat :: ts ∧ s.stream = w :: ws ∧ beatLast w = true := by
  rcases step_next_cases h with ⟨-, rfl⟩ | ⟨p, ts, -, -, rfl⟩ | ⟨ts, w, ws, hturns, hw, -, hexec⟩ |
    ⟨ts, w, as, -, -, -, hexec⟩ | ⟨ts, level, -, rfl⟩
  · exact absurd ht hs
  · rw [edgeWithoutOperation_phase] at ht
    split at ht
    · cases ht
    · exact absurd ht hs
  · exact ⟨ts, w, ws, hturns, hw, (beatLast_iff w).mpr (exec_enters_done hexec hs ht)⟩
  · have hchanged : t.x ≠ s.x := fun hx => hs (hx ▸ ht)
    obtain ⟨-, -, -, hidle⟩ := onlyCtrlWritesHaveAnEffect _ t _ (port_decodeHost w) hexec hchanged
    cases hidle.symm.trans ht
  · rw [driveReset_phase] at ht
    split at ht
    · cases ht
    · exact absurd ht hs

/-- A step leaves DONE only at an edge in reset or by the host's CLEAR or ACK (R163, R167). -/
theorem step_leaves_done {s t : State} (h : step s = .next t) (hs : s.x.phase = .done) (ht : t.x.phase ≠ .done) :
    s.rst = true ∨ (∃ ts, s.turns = .reset true :: ts) ∨
      ∃ ts w as, s.turns = .host :: ts ∧ s.host = ⟨1, w⟩ :: as ∧ hostWE w = true ∧ hostAddr w = 0x000#9 ∧
        (w.getLsbD 0 = true ∨ w.getLsbD 1 = true) := by
  rcases step_next_cases h with ⟨-, rfl⟩ | ⟨p, ts, -, -, rfl⟩ | ⟨ts, w, ws, -, -, hr, -⟩ |
    ⟨ts, w, as, hturns, ha, -, hexec⟩ | ⟨ts, level, hturns, rfl⟩
  · exact absurd hs ht
  · rw [edgeWithoutOperation_phase] at ht
    split at ht
    · exact .inl ‹_›
    · exact absurd hs ht
  · exact absurd hs ((siReady_iff s).mp hr).1
  · have hchanged : t.x ≠ s.x := fun hx => ht (hx ▸ hs)
    exact .inr (.inr ⟨ts, w, as, hturns, ha, ctrl_word_of_record_changes hexec hchanged⟩)
  · cases level with
    | true => exact .inr (.inl ⟨ts, hturns⟩)
    | false => exact absurd hs ht

/-- Settles O44: `done_o` is the phase DONE, which a step enters and leaves only so. -/
theorem doneRisesAndFallsAsTheSpecSays : Obligations.DoneRisesAndFallsAsTheSpecSays := by
  intro s t hstep
  refine ⟨fun hs ht => ?rises, fun hs ht => ?falls⟩
  case rises => exact step_enters_done hstep (s.doneO_eq_false_iff.mp hs) (t.doneO_eq_true_iff.mp ht)
  case falls => exact step_leaves_done hstep (s.doneO_eq_true_iff.mp hs) (t.doneO_eq_false_iff.mp ht)

end Sys2Proof.Machine
end

section
/-! SUPPORT. Reset (70_reset_and_hazards.md): neither port accepts an operation while `rst` is 1, so what is offered stays
offered and every turn of a port is one more reset edge (R180). An edge of the reset agent with `rst` at 1 sets the same record,
in every phase (R181). -/

namespace Sys2Proof.Machine

/-! ## The ports in reset -/

theorem siReady_of_reset {s : State} (hrst : s.rst = true) : s.siReady = false := by simp [State.siReady, hrst]

theorem hrReady_of_reset {s : State} (hrst : s.rst = true) : s.hrReady = false := by simp [State.hrReady, hrst]

/-- In reset a read returns nothing and a write to CTRL does not act (R180). -/
theorem exec_host_of_reset {i : Instr} {s : State} (hport : i.port = .host) (hrst : s.rst = true) :
    exec i s = .next s := by
  cases hread : i.isRead
  case true =>
    obtain ⟨r, hr⟩ := exec_of_isRead hread
    rw [hr, acceptRead_eq, if_pos hrst]
  case false =>
    cases i with
    | wrCtrl v => rw [exec_wrCtrl, acceptWrite_eq, if_pos hrst]
    | wrIgn a d => exact exec_wrIgn_eq a d s
    | push | pushl | eob | beatRsvd => cases hport
    | _ => cases hread

/-- Neither port runs an operation in reset (R180). -/
theorem exec_of_reset (i : Instr) {s : State} (hrst : s.rst = true) : exec i s = .next s := by
  cases hport : i.port with
  | stream => exact exec_of_held_beat hport (siReady_of_reset hrst)
  | host => exact exec_host_of_reset hport hrst

/-! ## A turn at which no operation is accepted -/

theorem passTurn_eq {s : State} {p : Turn} {ts : List Turn} (ht : s.turns = p :: ts) :
    s.passTurn = { s with turns := ts } := by
  simp [State.passTurn, ht]

theorem edgeWithoutOperation_of_reset {s : State} (hrst : s.rst = true) :
    edgeWithoutOperation s = s.withRegs (resetEdge s.x) := if_pos hrst

/-- The reset agent's edge with `rst` at 1 (R180). -/
theorem driveReset_asserted (s : State) : driveReset true s = (s.withRegs (resetEdge s.x)).withRst true := rfl

/-- The edge that releases reset (R185): only the level changes. -/
theorem driveReset_released (s : State) : driveReset false s = s.withRst false := rfl

/-- In reset the turn of either port is a clock edge without an operation, whatever is offered (R180). -/
theorem step_of_port_turn_in_reset {s : State} {p : Turn} {ts : List Turn} (hrst : s.rst = true)
    (ht : s.turns = p :: ts) (hp : p = .beat ∨ p = .host) : step s = .next (edgeWithoutOperation s.passTurn) := by
  rcases hp with rfl | rfl
  · exact (step_of_beat_turn ht).trans (offerBeat_of_none (.inr (siReady_of_reset (s := s.passTurn) hrst)))
  · exact (step_of_host_turn ht).trans (offerAccess_of_none (.inr (hrReady_of_reset (s := s.passTurn) hrst)))

/-! ## The statements -/

/-- Settles O8: with both ports closed an operation is not run, and a port's turn is an edge of R180. -/
theorem nothingIsAcceptedInReset : Obligations.NothingIsAcceptedInReset := by
  refine ⟨fun s i hrst => exec_of_reset i hrst, fun s p ts hrst ht hp => ?_⟩
  rw [step_of_port_turn_in_reset hrst ht hp, edgeWithoutOperation_of_reset (s := s.passTurn) hrst, passTurn_eq ht]
  rfl

/-- Settles O9: the reset agent's turn drives the level, and only the level 1 touches the record. -/
theorem resetEdgeSetsTheResetValues : Obligations.ResetEdgeSetsTheResetValues := by
  refine ⟨fun s ts ht => ?asserted, fun s ts ht => ?released⟩
  case asserted =>
    rw [step_of_reset_turn ht, driveReset_asserted, passTurn_eq ht]
    rfl
  case released =>
    rw [step_of_reset_turn ht, driveReset_released, passTurn_eq ht]
    rfl

end Sys2Proof.Machine
end

section
/-! SUPPORT. The invariant of every reachable state (10_state.md R24): the end of a buffer, CTRL writes and reserved beats keep
the record's invariant as the byte step does, so every operation and every step keeps it. What the invariant says of a byte
beat, and a latched result until the host releases it (40_aligner_checksum.md R113, R114, 60_exceptions.md R166, R167). -/

namespace Sys2Proof.Machine

/-! ## The end of a buffer -/

/-- A latched error meets the invariant, whatever the phase it is raised in left in the frame's registers (R24 item 5). -/
theorem latchedError_inv {x : Regs} (h : x.inv) {e : BitVec 2} (he : e = 1 ∨ e = 2) :
    ({ x with phase := .done, errc := e, okf := false, csv := false } : Regs).inv := by
  obtain ⟨⟨hle, -, -⟩, -, -, hwf⟩ := h
  refine ⟨?counts, ?head, ?result, hwf⟩
  case counts => simp [Regs.countsAgree, hle]
  case head => simp [Regs.headAgrees, Regs.busy]
  case result => rcases he with rfl | rfl <;> simp [Regs.resultAgrees, Regs.busy]

/-- In SUFFIX the whole frame is received, so the latched frame is as R24 item 4 says. -/
theorem completeOk_inv {x : Regs} (hp : x.phase = .suffix) (h : x.inv) : (completeOk x).inv := by
  obtain ⟨⟨hle, -, hfull⟩, ⟨-, hframe, hbusy⟩, -, hwf⟩ := h
  have hcnt : x.cnt = x.lenr := hfull (.inr hp)
  have hhead : x.headr = Config.startMarker := by
    have hgood := hbusy (x.busy_iff.mpr (by simp [hp]))
    rw [hframe (.inr (.inr hp))] at hgood
    simpa using hgood.symm
  refine ⟨?counts, ?head, ?result, hwf⟩
  case counts => simp [Regs.countsAgree, hle]
  case head => simp [Regs.headAgrees, Regs.busy]
  case result => simp [Regs.resultAgrees, Regs.busy, hcnt, hhead]

theorem endOfBuffer_inv {x : Regs} (h : x.inv) : (endOfBuffer x).inv := by
  rcases endOfBuffer_cases x with ⟨hp, he⟩ | ⟨-, he⟩ | ⟨-, he⟩ | ⟨-, he⟩ <;> rw [he]
  · exact completeOk_inv hp h
  · exact latchedError_inv h (.inr rfl)
  · exact h
  · exact latchedError_inv h (.inl rfl)

/-! ## CTRL writes and reserved beats -/

/-- ACK leaves a record of the invariant: IDLE asks nothing of the registers that the frame leaves behind. -/
theorem release_inv {x : Regs} (h : x.inv) : ({ x with phase := .idle } : Regs).inv := by
  obtain ⟨⟨hle, -, -⟩, -, ⟨-, -, -, hthree⟩, hwf⟩ := h
  refine ⟨?counts, ?head, ?result, hwf⟩
  case counts => simp [Regs.countsAgree, hle]
  case head => simp [Regs.headAgrees, Regs.busy]
  case result => simpa [Regs.resultAgrees, Regs.busy] using hthree

theorem ctrlWrite_inv (v : Byte) {x : Regs} (h : x.inv) : (ctrlWrite v x).inv := by
  rcases ctrlWrite_cases v x with ⟨-, hw⟩ | ⟨-, -, -, hw⟩ | ⟨-, -, hw⟩ <;> rw [hw]
  · obtain ⟨-, -, -, hwf⟩ := h
    exact clearAll_eq_resetEdge x ▸ resetEdge_inv hwf
  · exact release_inv h
  · exact h

/-- The invariant says nothing of BERR. -/
theorem markReserved_inv {x : Regs} (h : x.inv) : (markReserved x).inv := h

/-! ## Operations and steps -/

/-- Every operation keeps the record's invariant, by what it does to the record (R24). -/
theorem exec_inv {i : Instr} {s t : State} (hinv : s.x.inv) (h : exec i s = .next t) : t.x.inv := by
  rcases exec_next_cases h with ⟨-, y, rfl, hbeat⟩ | ⟨-, v, rfl, -⟩ | ⟨-, v, -, rfl⟩ | rfl
  · rcases hbeat with ⟨b, -, hy⟩ | ⟨b, z, -, hz, rfl⟩ | ⟨d, -, rfl⟩ | ⟨d, -, rfl⟩
    · exact takeByte_inv hinv hy
    · exact endOfBuffer_inv (takeByte_inv hinv hz)
    · exact endOfBuffer_inv hinv
    · exact markReserved_inv hinv
  · exact hinv
  · exact ctrlWrite_inv v hinv
  · exact hinv

theorem inv_of_released {s : State} (hrst : s.rst = false) (h : s.x.inv) : s.inv :=
  ⟨h, fun hreset => absurd (hrst.symm.trans hreset) Bool.false_ne_true⟩

/-- An operation that runs while reset is released keeps the state's invariant. -/
theorem exec_inv_of_released {i : Instr} {s t : State} (hrst : s.rst = false) (hinv : s.x.inv)
    (h : exec i s = .next t) : t.rst = false ∧ t.inv := by
  obtain ⟨hrst', -⟩ := exec_keeps_agents h
  have released : t.rst = false := hrst'.trans hrst
  exact ⟨released, inv_of_released released (exec_inv hinv h)⟩

/-- While reset is asserted the record holds its reset values after the edge too (R180). -/
theorem edgeWithoutOperation_inv {s : State} (h : s.inv) : (edgeWithoutOperation s).inv := by
  unfold edgeWithoutOperation
  split
  · obtain ⟨⟨-, -, -, hwf⟩, -⟩ := h
    exact ⟨resetEdge_inv hwf, fun _ => (resetEdge_resetEdge s.x).symm⟩
  · exact h

theorem driveReset_inv (level : Bool) {s : State} (h : s.inv) : (driveReset level s).inv := by
  cases level with
  | true =>
    obtain ⟨⟨-, -, -, hwf⟩, -⟩ := h
    exact ⟨resetEdge_inv hwf, fun _ => (resetEdge_resetEdge s.x).symm⟩
  | false => exact inv_of_released rfl h.1

/-- Settles O40: of everything a step can do, an operation runs only while reset is released and keeps the record's invariant,
and an edge of reset writes the reset values. -/
theorem everyStepKeepsTheInvariant : Obligations.EveryStepKeepsTheInvariant := by
  intro s t hinv hstep
  rcases step_next_cases hstep with ⟨-, rfl⟩ | ⟨p, ts, -, -, rfl⟩ | ⟨ts, w, ws, -, -, hr, hexec⟩ |
    ⟨ts, w, as, -, -, hrst, hexec⟩ | ⟨ts, level, -, rfl⟩
  · exact hinv
  · exact edgeWithoutOperation_inv (s := s.passTurn) hinv
  · obtain ⟨-, hrst⟩ := (siReady_iff s).mp hr
    exact (exec_inv_of_released (s := s.passTurn.dropBeat) hrst hinv.1 hexec).2
  · exact (exec_inv_of_released (s := s.passTurn.dropAccess) hrst hinv.1 hexec).2
  · exact driveReset_inv level (s := s.passTurn) hinv

/-! ## No turn -/

/-- Settles O11: FPCV takes no step of its own. -/
theorem noTurnChangesNothing : Obligations.NoTurnChangesNothing := by
  intro s ht
  rw [step, ht]

/-! ## Byte beats -/

/-- Settles O53: under the invariant `PAY` has a cell for the byte, and the byte goes behind those taken before it. -/
theorem alignerPlacesEveryByte : Obligations.AlignerPlacesEveryByte := by
  intro raw x b hinv haligned
  obtain ⟨y, hy⟩ := takeByte_ok b x (Regs.cnt_lt_of_inv hinv)
  exact ⟨y, hy, takeByte_aligned hinv haligned hy⟩

/-- A PUSH on a ready port that answers a next state has taken its byte, and changed only the record (R113). -/
theorem takeByte_of_exec_push {s t : State} {b : Byte} (hrst : s.rst = false) (hphase : s.x.phase ≠ .done)
    (h : exec (.push b) s = .next t) : ∃ y, takeByte b s.x = .ok y ∧ t = { s with x := y } := by
  rcases acceptBeat_next h with ⟨-, y, hy, rfl⟩ | ⟨hr, -⟩
  · exact ⟨y, hy, rfl⟩
  · exact absurd ((siReady_iff s).mpr ⟨hphase, hrst⟩) (ne_true_of_eq_false hr)

/-- Settles O21: the PUSH takes the byte and leaves a phase other than DONE, so the EOB ends the buffer in the record that
PUSHL ends it in. -/
theorem pushlIsPushThenEob : Obligations.PushlIsPushThenEob := by
  intro s t b d hrst hphase hpush
  obtain ⟨y, hy, rfl⟩ := takeByte_of_exec_push hrst hphase hpush
  calc exec (.pushl b) s = .next { s with x := endOfBuffer y } := exec_pushl_of_takeByte hrst hphase hy
    _ = exec (.eob d) { s with x := y } :=
      (exec_eob_of_ready (s := { s with x := y }) hrst (takeByte_phase_ne_done hphase hy) d).symm

/-- No byte leads to IDLE: the head's byte leaves it and no other arm enters it (R104 to R110). -/
theorem takeByte_phase_ne_idle {b : Byte} {x y : Regs} (hy : takeByte b x = .ok y) : y.phase ≠ .idle := by
  rcases takeByte_cases hy with ⟨-, rfl⟩ | ⟨-, rfl⟩ | ⟨-, rfl⟩ | ⟨-, -, rfl⟩ | ⟨-, rfl⟩ | ⟨hp, rfl⟩ | ⟨hp, rfl⟩ | ⟨hp, rfl⟩
  · simp
  · simp
  · rcases takeLength_phase_cases b x with ⟨-, hph⟩ | ⟨-, -, hph⟩ | ⟨-, -, hph⟩ <;> rw [hph] <;> decide
  · dsimp only
    split <;> decide
  · simp
  · simp [hp]
  · simp [hp]
  · simp [hp]

/-- Settles O22: a byte leads neither to IDLE nor to DONE, which is what BUSY and DONE say, and BERR is in its frame. -/
theorem pushLeavesABufferInProgress : Obligations.PushLeavesABufferInProgress := by
  intro s t b hrst hphase hpush
  obtain ⟨y, hy, rfl⟩ := takeByte_of_exec_push hrst hphase hpush
  have hidle := takeByte_phase_ne_idle hy
  have hdone := takeByte_phase_ne_done hphase hy
  refine ⟨?busy, ?done, (takeByte_frame hy).berr⟩
  case busy => exact (y.statusValue_getLsbD 0).trans (y.busy_iff.mpr ⟨hidle, hdone⟩)
  case done => exact (y.statusValue_getLsbD 1).trans (eq_false_of_ne_true (mt y.doneO_iff.mp hdone))

/-! ## A latched result -/

/-- Settles O43: in DONE the stream port is closed, so the record changes only at a reset edge or by a host access, which is
then CLEAR or ACK. -/
theorem latchedResultStaysUntilReleased : Obligations.LatchedResultStaysUntilReleased := by
  intro s t hdone hrst hstep hx
  rcases step_next_cases hstep with ⟨-, rfl⟩ | ⟨p, ts, -, -, rfl⟩ | ⟨ts, w, ws, -, -, hr, -⟩ |
    ⟨ts, w, as, hturns, ha, -, hexec⟩ | ⟨ts, level, hturns, rfl⟩
  · exact absurd rfl hx
  · rw [edgeWithoutOperation, if_neg (by simp [hrst])] at hx
    exact absurd rfl hx
  · exact absurd hdone ((siReady_iff s).mp hr).1
  · exact .inr ⟨ts, w, as, hturns, ha, ctrl_word_of_record_changes hexec hx⟩
  · cases level with
    | true => exact .inl ⟨ts, hturns⟩
    | false => exact absurd rfl hx

end Sys2Proof.Machine
end

section
/-! SUPPORT. The round trip of a frame (40_aligner_checksum.md R122): the bytes the host reads back from an Ok result are the
frame's bytes, `parse` finds the same frame in them, and the contract of R121 gives both results their read values. -/

namespace Sys2Proof.Machine

/-! ## What a run of operations keeps -/

/-- What every operation keeps, a run of operations keeps, by induction on the run. -/
theorem runOps_keeps {P : State → Prop} (hP : ∀ {i s t}, exec i s = .next t → P s → P t) {is : List Instr} {s t : State}
    (h : runOps is s = .next t) (hs : P s) : P t := by
  induction is generalizing s with
  | nil => exact Host.Outcome.next.inj h ▸ hs
  | cons i is ih =>
    obtain ⟨u, hexec, hrun⟩ := runOps_cons_next_iff.mp h
    exact ih hrun (hP hexec hs)

/-- A run of operations from a released state of the invariant ends in one. -/
theorem runOps_inv_of_released {is : List Instr} {s t : State} (hrst : s.rst = false) (hinv : s.x.inv)
    (h : runOps is s = .next t) : t.rst = false ∧ t.inv :=
  runOps_keeps (P := fun s => s.rst = false ∧ s.inv) (fun hexec ⟨hrst, hinv⟩ => exec_inv_of_released hrst hinv.1 hexec) h
    ⟨hrst, inv_of_released hrst hinv⟩

/-! ## The contract of an Ok result -/

/-- Every register of R30 is the register of some offset. -/
theorem exists_offset_of_hostReg (r : HostReg) : ∃ a, hostRegAt a = r := by
  cases r with
  | ctrl => exact ⟨0x000, rfl⟩
  | status => exact ⟨0x001, rfl⟩
  | errcode => exact ⟨0x002, rfl⟩
  | head => exact ⟨0x003, rfl⟩
  | type => exact ⟨0x004, rfl⟩
  | length => exact ⟨0x005, rfl⟩
  | csumRx => exact ⟨0x006, rfl⟩
  | csumCalc => exact ⟨0x007, rfl⟩
  | kind => exact ⟨0x008, rfl⟩
  | suffixCnt => exact ⟨0x009, rfl⟩
  | reserved => exact ⟨0x00A, rfl⟩
  | payload i => exact ⟨1#1 ++ i, hostRegAt_window i⟩

theorem MeetsContract.readReg {raw : List Byte} {x : Regs} (h : MeetsContract raw x) (r : HostReg) :
    x.readReg r = contractValue raw x.berr r := by
  obtain ⟨a, rfl⟩ := exists_offset_of_hostReg r
  exact h.2 a

/-- A decode error clears bit 2 of STATUS, so a result with OKF set is a frame that `parse` finds (R35, R121). -/
theorem MeetsContract.exists_parse_eq_ok {raw : List Byte} {x : Regs} (h : MeetsContract raw x) (hok : x.okf = true) :
    ∃ f, parse raw = .ok f := by
  cases hparse : parse raw with
  | ok f => exact ⟨f, rfl⟩
  | error e =>
    have hbit : x.statusValue.getLsbD 2 = true :=
      (x.statusValue_getLsbD 2).trans (x.visible_iff.mpr ⟨h.1, hok⟩)
    have hstatus : x.statusValue = contractValue raw x.berr .status := h.readReg .status
    simp only [hstatus, contractValue, hparse] at hbit
    cases hberr : x.berr <;> simp [hberr] at hbit

/-- The bytes of a payload, one index after the other. -/
theorem map_rawAt_range (p : List Byte) : (List.range p.length).map (rawAt p) = p := by
  apply List.ext_getElem
  · simp
  · intro i _ hi
    simp [rawAt, hi]

/-- The host reads the frame back from the registers (R122). -/
theorem MeetsContract.readBack_eq_bytes {raw : List Byte} {x : Regs} {f : ParsedFrame} (h : MeetsContract raw x)
    (hparse : parse raw = .ok f) : readBack x = f.bytes := by
  have hhead : x.readHead = f.head := (h.readReg .head).trans (by simp [contractValue, hparse])
  have htype : x.readType = f.typeCode := (h.readReg .type).trans (by simp [contractValue, hparse])
  have hlength : x.readLength = f.length := (h.readReg .length).trans (by simp [contractValue, hparse])
  have hcsum : x.readCsumRx = f.checksum := (h.readReg .csumRx).trans (by simp [contractValue, hparse])
  have hdata : f.data.length = f.length.toNat := by
    obtain ⟨t, l, p, c, hp, rfl⟩ := eq_frameOf_of_parse hparse
    exact hp
  have hpayload : (List.range f.length.toNat).map (fun i => x.readPayload (BitVec.ofNat 8 i)) = f.data := by
    rw [← hdata]
    refine (List.map_congr_left fun i hi => ?_).trans (map_rawAt_range f.data)
    have hlt : i < f.length.toNat := hdata ▸ List.mem_range.mp hi
    have hindex : (BitVec.ofNat 8 i).toNat = i := by
      have := f.length.isLt
      rw [BitVec.toNat_ofNat]
      omega
    refine (h.readReg (.payload (BitVec.ofNat 8 i))).trans ?_
    simp [contractValue, hparse, hindex, hlt]
  rw [readBack, ParsedFrame.bytes, hhead, htype, hlength, hcsum, hpayload]

/-! ## Two buffers with one frame -/

/-- The contract depends on the buffer only through what `parse` answers, but for SUFFIX_CNT (R121). -/
theorem contractValue_congr {raw raw' : List Byte} {f : ParsedFrame} (h : parse raw = .ok f) (h' : parse raw' = .ok f)
    (beatErr : Bool) {r : HostReg} (hr : r ≠ .suffixCnt) : contractValue raw beatErr r = contractValue raw' beatErr r := by
  cases r with
  | suffixCnt => exact absurd rfl hr
  | _ => simp only [contractValue, h, h']

/-- A buffer of a frame's bytes has no suffix (R121). -/
theorem suffixCount_bytes {raw : List Byte} {f : ParsedFrame} (h : parse raw = .ok f) : suffixCount f.bytes f = 0x00 := by
  obtain ⟨t, l, p, c, hp, rfl⟩ := eq_frameOf_of_parse h
  have hlen : (frameOf t l p c).bytes.length = 4 + l.toNat := by
    simp only [frameOf, ParsedFrame.bytes, List.length_cons, List.length_append, List.length_nil, hp]
    omega
  have hl : (frameOf t l p c).length = l := rfl
  rw [suffixCount, hlen, hl, Nat.sub_self]
  rfl

/-! ## The statement -/

/-- Settles O56: the ACK leads to IDLE and keeps BERR, the second buffer is the frame's bytes, and both results read as the
contract gives it for that frame. -/
theorem readBackFrameDecodesAgain : Obligations.ReadBackFrameDecodesAgain := by
  intro is js raw s t hinv hrst hidle hdelivered hrun hok hagain hplain
  obtain ⟨t', hrun', hfirst, -⟩ := deliveredBufferMeetsTheContract is raw s hinv hrst hidle hdelivered
  obtain rfl := Host.Outcome.next.inj (hrun.symm.trans hrun')
  obtain ⟨hrst', hinv'⟩ := runOps_inv_of_released hrst hinv.1 hrun
  obtain ⟨f, hparse⟩ := hfirst.exists_parse_eq_ok hok
  have hparse' := parseOfEncodedFrameIsTheFrame raw f hparse
  rw [hfirst.readBack_eq_bytes hparse] at hagain
  have hack := exec_wrCtrl_of_released 0x02 hrst'
  obtain ⟨hreleased, hacked⟩ := exec_inv_of_released hrst' hinv'.1 hack
  obtain ⟨hphase, hberr⟩ := ctrlWrite_of_release (v := 0x02) (x := t.x) (.inr ⟨rfl, hfirst.1⟩)
  obtain ⟨u, hrunAgain, hsecond, hberrAgain⟩ :=
    deliveredBufferMeetsTheContract js f.bytes _ hacked hreleased hphase hagain
  have hberrKept : u.x.berr = t.x.berr := by
    rw [hberrAgain, List.any_eq_false.mpr fun j hj => ne_true_of_eq_false (hplain j hj), Bool.or_false]
    exact hberr
  refine ⟨u, runOps_cons_next_iff.mpr ⟨_, hack, hrunAgain⟩, ?suffix, fun a ha => ?others⟩
  case suffix =>
    refine (hsecond.readReg .suffixCnt).trans ?_
    simp only [contractValue, hparse', suffixCount_bytes hparse]
  case others =>
    calc u.x.readAt a = contractValue f.bytes u.x.berr (hostRegAt a) := hsecond.2 a
      _ = contractValue raw t.x.berr (hostRegAt a) := by
        rw [hberrKept, contractValue_congr hparse' hparse _ (mt (hostRegAt_suffixCnt_iff a).mp ha)]
      _ = t.x.readAt a := (hfirst.2 a).symm

end Sys2Proof.Machine
end
